-- ==== Sys2Proof/Word.lean ====
section
/-! DEFINITION. The plain data types of AMCORE's values (spec/00_scope.md R20, R21).

A register holds an unsigned bit vector; a bit sequence is a finite list of bits whose
position 0 is the first bit consumed, produced or transmitted. -/

namespace Sys2Proof

/-- One payload byte, one cell of PBUF (R52). -/
abbrev Byte := BitVec 8

/-- A bit sequence: position 0 is the head of the list (R20). -/
abbrev BitSeq := List Bool

/-- A 4-bit group of the line code as an integer: the group's first bit is bit 3 (R84). -/
abbrev Group := BitVec 4

/-- A 5-bit codeword of the line code as an integer: its first bit is bit 4 (R84). -/
abbrev Codeword := BitVec 5

/-- A command word, as a host writes it to CMD (R92). -/
abbrev Word := BitVec 32

end Sys2Proof
end

