-- ==== Sys2Proof/Config.lean ====
section
/-! DEFINITION. The implementation parameters of spec/00_scope.md R11 to R19, the default of
LC_TABLE (spec/40_line_coding.md R102), the preamble's constant, and the free values.

The parameters a model takes as arguments (LC_TABLE and the three capacities) form `Params`;
State carries one and nothing changes it (log 3). -/

namespace Sys2Proof.Config

/-- R11: `ADDR_BITS`. -/
def addrBits : Nat := 48

/-- R12: `MAX_PAYLOAD`, the largest payload in bytes. -/
def maxPayload : Nat := 65535

/-- R15: `PRE_BITS`. -/
def preBits : Nat := 64

/-- R16: `CRC_POLY`, the reflected CRC-32 polynomial. -/
def crcPoly : BitVec 32 := 0xEDB88320#32

/-- R142: the CRC's initial register.
PRESUMED (log 7): the spec takes it from general knowledge (93_implementation_defined.md G2). -/
def crcInit : BitVec 32 := 0xFFFFFFFF#32

/-- R142: the CRC's final XOR.
PRESUMED (log 7): the spec takes it from general knowledge (93_implementation_defined.md G2). -/
def crcXorOut : BitVec 32 := 0xFFFFFFFF#32

/-- R17: `SYS_SEED`, the NRZI seed of both frame pipelines. -/
def sysSeed : Bool := true

/-- R18: `MIN_RAW_BITS`, that is 8*(2*6 + 2 + 4). -/
def minRawBits : Nat := 144

/-- R13, R102: the default of LC_TABLE, entry `g` the codeword of group `g`.
PRESUMED (log 3): the spec takes it from general knowledge (93_implementation_defined.md G1). -/
def defaultLcTable : Vector Codeword 16 :=
  #v[0x1E#5, 0x09#5, 0x14#5, 0x15#5, 0x0A#5, 0x0B#5, 0x0E#5, 0x0F#5,
     0x12#5, 0x13#5, 0x16#5, 0x17#5, 0x1A#5, 0x1B#5, 0x1C#5, 0x1D#5]

/-- The parameters of a run: the buffer capacities of R19 (IBUF and OBUF in bits, PBUF in bytes) and
the expansion table of R13, which is the contents of the ROM LC_EXP (R41). -/
structure Params where
  ibufCap : Nat
  obufCap : Nat
  pbufCap : Nat
  lcTable : Vector Codeword 16
deriving DecidableEq, Repr

/-- The defaults of R19 and R102. -/
def defaults : Params where
  ibufCap := 655594
  obufCap := 655594
  pbufCap := 65535
  lcTable := defaultLcTable

/-- The laws the spec puts on the parameters: LC_TABLE is injective (R13, R101), `IBUF_CAP >= 144`,
`OBUF_CAP >= 64` (R19).
DEDUCED (log 4): a capacity fits the 32-bit length register that must be able to hold it (R31 to R33). -/
abbrev Params.ok (p : Params) : Prop :=
  p.lcTable.toList.Nodup ∧ 144 ≤ p.ibufCap ∧ 64 ≤ p.obufCap ∧
    p.ibufCap < 2 ^ 32 ∧ p.obufCap < 2 ^ 32 ∧ p.pbufCap < 2 ^ 32

/-- R68: where a platform places the registers in its own address space. No rule reads it, so nothing
in the model does (log 10). -/
opaque amcoreBase : Nat

/-- R54, U6: the value of IBUF cell `i` after the reset number `epoch`, until it is written. A free value
(log 5). -/
opaque freeIbufBit : (epoch i : Nat) → Bool

/-- R54, U6: the value of OBUF cell `i` after the reset number `epoch`, until it is written. A free value
(log 5). -/
opaque freeObufBit : (epoch i : Nat) → Bool

/-- R54, U6: the value of PBUF cell `j` after the reset number `epoch`, until it is written. A free value
(log 5). -/
opaque freePbufByte : (epoch j : Nat) → Byte

end Sys2Proof.Config
end

