-- ==== Sys2Proof/Syntax.lean ====
section
/-! DEFINITION. The command set (spec/30_encoding.md R92 to R94) and the fields of a command word.

An `Instr` carries its operand at exactly the width its class gives it (R93), so every term of `Instr`
is a legal command. Illegality is a property of command WORDS (R95): see `CmdWord` and WellFormed.lean. -/

namespace Sys2Proof

/-- The twenty-three commands of R94, in the order of spec/opcode_table.json. -/
inductive Instr where
  /-- R170: do nothing. -/
  | nop
  /-- R106: expand one group `G` (class G). -/
  | lcExp4 (g : Group)
  /-- R107: contract one codeword `C` (class C). -/
  | lcCon5 (c : Codeword)
  /-- R108: expand IBUF_SEQ into OBUF. -/
  | lcExpand
  /-- R109: contract IBUF_SEQ into OBUF. -/
  | lcContract
  /-- R115: load the seed `S` into both streaming pipelines (class S). -/
  | nrziSeed (seed : Bool)
  /-- R116: one encoder step on the data bit `B` (class S). -/
  | nrziEbit (b : Bool)
  /-- R117: one decoder step on the data bit `B` (class S). -/
  | nrziDbit (b : Bool)
  /-- R118: encode IBUF_SEQ into OBUF with the seed `S` (class S). -/
  | nrziEnc (seed : Bool)
  /-- R119: decode IBUF_SEQ into OBUF with the seed `S` (class S). -/
  | nrziDec (seed : Bool)
  /-- R133: write the preamble to OBUF. -/
  | preGen
  /-- R136: test IBUF_SEQ for the preamble at offset 0. -/
  | preMatch
  /-- R134: start the streaming matcher. -/
  | pmReset
  /-- R135: feed the bit `B` to the streaming matcher (class S). -/
  | pmBit (b : Bool)
  /-- R146: start a streaming CRC. -/
  | crcInit
  /-- R147: feed the byte `Y` (class Y). -/
  | crcByte (y : Byte)
  /-- R148: read out the streaming CRC. -/
  | crcFinal
  /-- R149: CRC of the payload buffer. -/
  | crc32
  /-- R154: build the raw frame into OBUF. -/
  | frameMarshal
  /-- R155: split and validate the raw frame in IBUF. -/
  | frameSplit
  /-- R156: encode a whole transmittable frame into OBUF. -/
  | frameEnc
  /-- R157: decode and validate a transmittable frame in IBUF. -/
  | frameDec
  /-- R171: copy OBUF_SEQ into IBUF. -/
  | xfer
deriving DecidableEq, Repr

/-- The three fields of a command word (R26, R92): OPC = bits 7:0, IMM8 = bits 15:8, RSVD = bits 31:16. -/
structure CmdWord where
  opc : BitVec 8
  imm8 : BitVec 8
  rsvd : BitVec 16
deriving DecidableEq, Repr

/-- The operand classes of R93. -/
inductive OpClass where
  /-- No operand. -/
  | n
  /-- One bit, a seed or a data bit. -/
  | s
  /-- A 4-bit group. -/
  | g
  /-- A 5-bit codeword. -/
  | c
  /-- A byte. -/
  | y
deriving DecidableEq, Repr

/-- The three ways a command word can be illegal (R95). The decoder names them; executing such a word
is `fail(ILLEGAL_CMD)` for each of them. -/
inductive Illegal where
  /-- `RSVD != 0`. -/
  | rsvdNonzero
  /-- OPC is unassigned in R94. -/
  | opcUnassigned
  /-- IMM8 breaks the legality condition of the opcode's class. -/
  | immOutsideClass
deriving DecidableEq, Repr

end Sys2Proof
end

