-- ==== Sys2Proof/WellFormed.lean ====
section
/-! DEFINITION. When a command word is legal (spec/30_encoding.md R93 to R95): three checks, each a Bool. -/

namespace Sys2Proof

/-- R94: the operand class of each assigned opcode; `none` for an unassigned OPC. -/
def opClass (opc : BitVec 8) : Option OpClass :=
  match opc.toNat with
  | 0x00 => some .n
  | 0x01 => some .g
  | 0x02 => some .c
  | 0x03 | 0x04 => some .n
  | 0x08 | 0x09 | 0x0A | 0x0B | 0x0C => some .s
  | 0x10 | 0x11 | 0x12 => some .n
  | 0x13 => some .s
  | 0x18 => some .n
  | 0x19 => some .y
  | 0x1A | 0x1B => some .n
  | 0x20 | 0x21 | 0x22 | 0x23 | 0x28 => some .n
  | _ => none

/-- R93: the legal values of IMM8 under each operand class. -/
def OpClass.immLegal : OpClass → BitVec 8 → Bool
  | .n, imm => imm == 0#8
  | .s, imm => imm.extractLsb' 1 7 == 0#7
  | .g, imm => imm.extractLsb' 4 4 == 0#4
  | .c, imm => imm.extractLsb' 5 3 == 0#3
  | .y, _ => true

namespace CmdWord

/-- R95, first condition: `RSVD = 0`. -/
def rsvdOk (w : CmdWord) : Bool := w.rsvd == 0#16

/-- R95, second condition: OPC is assigned in R94. -/
def opcOk (w : CmdWord) : Bool := (opClass w.opc).isSome

/-- R95, third condition: IMM8 is legal for the class of OPC. -/
def immOk (w : CmdWord) : Bool :=
  match opClass w.opc with
  | some k => k.immLegal w.imm8
  | none => false

/-- R95: the word is a command of R94 with legal operands. -/
def wellFormed (w : CmdWord) : Bool := w.rsvdOk && w.opcOk && w.immOk

/-- R26, R92: the fields of a 32-bit word. -/
def ofWord (w : Word) : CmdWord where
  opc := w.extractLsb' 0 8
  imm8 := w.extractLsb' 8 8
  rsvd := w.extractLsb' 16 16

/-- R92: the 32-bit word of three fields. -/
def toWord (w : CmdWord) : Word := w.rsvd ++ w.imm8 ++ w.opc

end CmdWord

end Sys2Proof
end

