-- ==== Sys2Proof/Decode.lean ====
section
/-! DEFINITION. The decoder and the encoder of command words (spec/30_encoding.md R92 to R95, R99).

A command word is one 32-bit register value, so the decoder takes a word and not a list of bytes. It is
total: every word is either one command or illegal, by name. -/

namespace Sys2Proof

/-- R93, class N: `IMM8 = 0`. -/
def classN (imm : BitVec 8) (i : Instr) : Except Illegal Instr :=
  if OpClass.n.immLegal imm then .ok i else .error .immOutsideClass

/-- R93, class S: the operand is `IMM8[0]`, legal if `IMM8[7:1] = 0`. -/
def classS (imm : BitVec 8) (f : Bool → Instr) : Except Illegal Instr :=
  if OpClass.s.immLegal imm then .ok (f (imm.getLsbD 0)) else .error .immOutsideClass

/-- R93, class G: the operand is `IMM8[3:0]`, legal if `IMM8[7:4] = 0`. -/
def classG (imm : BitVec 8) (f : Group → Instr) : Except Illegal Instr :=
  if OpClass.g.immLegal imm then .ok (f (imm.extractLsb' 0 4)) else .error .immOutsideClass

/-- R93, class C: the operand is `IMM8[4:0]`, legal if `IMM8[7:5] = 0`. -/
def classC (imm : BitVec 8) (f : Codeword → Instr) : Except Illegal Instr :=
  if OpClass.c.immLegal imm then .ok (f (imm.extractLsb' 0 5)) else .error .immOutsideClass

/-- R93, class Y: the operand is `IMM8[7:0]`, always legal. -/
def classY (imm : BitVec 8) (f : Byte → Instr) : Except Illegal Instr := .ok (f imm)

/-- R94: the opcode map. -/
def decodeOpc (opc imm : BitVec 8) : Except Illegal Instr :=
  match opc.toNat with
  | 0x00 => classN imm .nop
  | 0x01 => classG imm .lcExp4
  | 0x02 => classC imm .lcCon5
  | 0x03 => classN imm .lcExpand
  | 0x04 => classN imm .lcContract
  | 0x08 => classS imm .nrziSeed
  | 0x09 => classS imm .nrziEbit
  | 0x0A => classS imm .nrziDbit
  | 0x0B => classS imm .nrziEnc
  | 0x0C => classS imm .nrziDec
  | 0x10 => classN imm .preGen
  | 0x11 => classN imm .preMatch
  | 0x12 => classN imm .pmReset
  | 0x13 => classS imm .pmBit
  | 0x18 => classN imm .crcInit
  | 0x19 => classY imm .crcByte
  | 0x1A => classN imm .crcFinal
  | 0x1B => classN imm .crc32
  | 0x20 => classN imm .frameMarshal
  | 0x21 => classN imm .frameSplit
  | 0x22 => classN imm .frameEnc
  | 0x23 => classN imm .frameDec
  | 0x28 => classN imm .xfer
  | _ => .error .opcUnassigned

/-- R92 to R95: the command a word is, or the way it is illegal. -/
def decode (w : Word) : Except Illegal Instr :=
  let c := CmdWord.ofWord w
  if c.rsvdOk then decodeOpc c.opc c.imm8 else .error .rsvdNonzero

/-- R94: the fields of a command's word: its OPC, its operand zero-extended to IMM8 (R93), RSVD zero. -/
def encodeFields : Instr → CmdWord
  | .nop => ⟨0x00#8, 0#8, 0#16⟩
  | .lcExp4 g => ⟨0x01#8, g.setWidth 8, 0#16⟩
  | .lcCon5 c => ⟨0x02#8, c.setWidth 8, 0#16⟩
  | .lcExpand => ⟨0x03#8, 0#8, 0#16⟩
  | .lcContract => ⟨0x04#8, 0#8, 0#16⟩
  | .nrziSeed b => ⟨0x08#8, (BitVec.ofBool b).setWidth 8, 0#16⟩
  | .nrziEbit b => ⟨0x09#8, (BitVec.ofBool b).setWidth 8, 0#16⟩
  | .nrziDbit b => ⟨0x0A#8, (BitVec.ofBool b).setWidth 8, 0#16⟩
  | .nrziEnc b => ⟨0x0B#8, (BitVec.ofBool b).setWidth 8, 0#16⟩
  | .nrziDec b => ⟨0x0C#8, (BitVec.ofBool b).setWidth 8, 0#16⟩
  | .preGen => ⟨0x10#8, 0#8, 0#16⟩
  | .preMatch => ⟨0x11#8, 0#8, 0#16⟩
  | .pmReset => ⟨0x12#8, 0#8, 0#16⟩
  | .pmBit b => ⟨0x13#8, (BitVec.ofBool b).setWidth 8, 0#16⟩
  | .crcInit => ⟨0x18#8, 0#8, 0#16⟩
  | .crcByte y => ⟨0x19#8, y, 0#16⟩
  | .crcFinal => ⟨0x1A#8, 0#8, 0#16⟩
  | .crc32 => ⟨0x1B#8, 0#8, 0#16⟩
  | .frameMarshal => ⟨0x20#8, 0#8, 0#16⟩
  | .frameSplit => ⟨0x21#8, 0#8, 0#16⟩
  | .frameEnc => ⟨0x22#8, 0#8, 0#16⟩
  | .frameDec => ⟨0x23#8, 0#8, 0#16⟩
  | .xfer => ⟨0x28#8, 0#8, 0#16⟩

/-- R94: the command word of a command, `OPC or (operand << 8)`. -/
def encode (i : Instr) : Word := (encodeFields i).toWord

/-- The instruction the decoder reads from a table word: the word's low `nbits` bits, bit 0 the least
significant, as spec/opcode_table.json numbers them; `none` where the decoder refuses. -/
def decodeTableWord (nbits w : Nat) : Option Instr :=
  (decode (BitVec.ofNat 32 (w % 2 ^ nbits))).toOption

end Sys2Proof
end

