-- ==== Sys2Proof/Machine/State.lean ====
section
/-! DEFINITION. The state of AMCORE (spec/10_state.md R24, R25; spec/20_memory.md R50 to R52), the host's
accesses (R55), and the reset state (spec/70_reset_and_hazards.md R200). -/

namespace Sys2Proof.Machine

/-- A buffer: the cells that have been written since reset, as (index, value) pairs. Canonical form
(`Memory.wf` in Ops.lean): indices strictly rising. An unlisted index is a cell that nothing has written since
reset; what it reads as is a free value (R54, log 5). `Memory Byte` is a list of `Host.Cell`. -/
abbrev Memory (α : Type) := List (Nat × α)

/-- R55: the accesses the host has, each atomic. A register number and an index are naturals. -/
inductive HostAccess where
  /-- `HostWriteReg(r, v)`; on CMD it issues a command. -/
  | writeReg (r v : Nat)
  /-- `HostReadReg(r)`. -/
  | readReg (r : Nat)
  /-- `HostWriteIBUF(i, b)`. -/
  | writeIbuf (i : Nat) (b : Bool)
  /-- `HostReadIBUF(i)`. -/
  | readIbuf (i : Nat)
  /-- `HostReadOBUF(i)`. -/
  | readObuf (i : Nat)
  /-- `HostWritePBUF(j, x)`. -/
  | writePbuf (j : Nat) (x : Byte)
  /-- `HostReadPBUF(j)`. -/
  | readPbuf (j : Nat)
  /-- `HostReset()`. -/
  | reset
deriving DecidableEq, Repr

/-- The whole state. The eleven registers of R25, the three buffers of R50 to R52, the parameters of the
run (which hold the ROM LC_EXP of R41), and three fields of the model's own: `resetEpoch` (log 5),
`pending` (log 1) and `reply` (log 2). LC_CON and PRE_ROM (R41) are constants computed in LineCode.lean and
Preamble.lean (log 14). -/
structure State where
  /-- R13, R19, R41: the parameters of the run; nothing writes them (log 3). -/
  par : Config.Params
  /-- R26: CMD, the last command word written. -/
  cmd : BitVec 32
  /-- R27: STATUS; its fields are read by `statusOK` and `statusReason` (Flags.lean). -/
  status : BitVec 16
  /-- R28: RES, the scalar result. -/
  res : BitVec 32
  /-- R29: SRC, the source address. -/
  src : BitVec 64
  /-- R30: TGT, the target address. -/
  tgt : BitVec 64
  /-- R31: IBUF_LEN. -/
  ibufLen : BitVec 32
  /-- R32: OBUF_LEN. -/
  obufLen : BitVec 32
  /-- R33: PBUF_LEN. -/
  pbufLen : BitVec 32
  /-- R34: CRC_ACC, before the final XOR. -/
  crcAcc : BitVec 32
  /-- R35: NRZ; its fields are read by `nrzLvl` and `nrzPrev` (Nrzi.lean). -/
  nrz : BitVec 32
  /-- R36: PM; its fields are read by `pmCnt` and `pmSt` (Preamble.lean). -/
  pm : BitVec 32
  /-- R50: the written cells of IBUF. -/
  ibuf : Memory Bool
  /-- R51: the written cells of OBUF. -/
  obuf : Memory Bool
  /-- R52: the written cells of PBUF. -/
  pbuf : Memory Byte
  /-- The model's own (log 5): how many HostResets have happened. It selects the free values of the unwritten
  buffer cells. -/
  resetEpoch : Nat
  /-- The model's own (log 1): the accesses the host has still to make, the next one first. -/
  pending : List HostAccess
  /-- The model's own (log 2): the value the last host access returned, zero-extended; `none` after an access
  that returns nothing. -/
  reply : Option (BitVec 64)
deriving DecidableEq, Repr

/-- The reasons a step can stop the machine: none. AMCORE has failures reported in STATUS and no traps or
exceptions (R183), and every host access is permitted (R69, R191). -/
inductive Fault where
deriving DecidableEq, Repr

/-- The refusals of the model. -/
inductive Refusal where
  /-- Raised by `exec` for an instruction whose meaning is not written (safe). No arm raises it. -/
  | notModelled (mnemonic : String)
deriving DecidableEq, Repr

/-- R200: the registers of `HostReset()` and power-on; the buffers hold no written cell, so every cell
has its free value. The parameters are the defaults of R19 and R102 (log 3); the host has no access
pending (log 1). -/
def State.reset : State where
  par := Config.defaults
  cmd := 0x00000000#32
  status := 0x0000#16
  res := 0x00000000#32
  src := 0#64
  tgt := 0#64
  ibufLen := 0#32
  obufLen := 0#32
  pbufLen := 0#32
  crcAcc := 0xFFFFFFFF#32
  nrz := 0x00000003#32
  pm := 0x00000000#32
  ibuf := []
  obuf := []
  pbuf := []
  resetEpoch := 0
  pending := []
  reply := none

end Sys2Proof.Machine
end

