-- ==== Sys2Proof/Machine/Flags.lean ====
section
/-! DEFINITION. STATUS, AMCORE's only flags (spec/10_state.md R27, R40), and the failure reasons
(spec/60_exceptions.md R180). -/

namespace Sys2Proof.Machine

/-- R180: the failure reasons 1 to 11. (REASON 0 is "no failure"; 12 to 15 are never produced.) -/
inductive Reason where
  /-- 1, FRAME_DEC: the input is shorter than 144 bits. -/
  | shortInput
  /-- 2, FRAME_DEC: the input does not begin with the preamble. -/
  | noPreamble
  /-- 3: the input length is not a multiple of the group size. -/
  | misaligned
  /-- 4: a 5-bit group outside the image of LC_TABLE. -/
  | invalidCodeword
  /-- 5: a raw frame shorter than 144 bits. -/
  | shortFrame
  /-- 6: the CRC field is not the CRC-32 of the preceding bytes. -/
  | crcMismatch
  /-- 7: the raw length is not a multiple of 8, or the payload byte count is not the declared length. -/
  | lengthMismatch
  /-- 8: SRC or TGT is 2^48 or more. -/
  | addrOverflow
  /-- 9: PBUF_LEN is above 65535. -/
  | payloadOverflow
  /-- 10: a result longer than the buffer that must hold it. -/
  | bufferOverflow
  /-- 11: an illegal command word (R95). -/
  | illegalCmd
deriving DecidableEq, Repr

/-- R180: the code of a reason, STATUS.REASON. -/
def Reason.code : Reason → BitVec 4
  | .shortInput => 1
  | .noPreamble => 2
  | .misaligned => 3
  | .invalidCodeword => 4
  | .shortFrame => 5
  | .crcMismatch => 6
  | .lengthMismatch => 7
  | .addrOverflow => 8
  | .payloadOverflow => 9
  | .bufferOverflow => 10
  | .illegalCmd => 11

/-- R184: STATUS after a successful command. -/
def statusSuccess : BitVec 16 := 0x0001#16

/-- R185: STATUS after a failed command, `zext_16(r << 1)`. -/
def statusFailure (r : Reason) : BitVec 16 := (r.code.setWidth 16) <<< 1

/-- R27: the field OK, bit 0. -/
def statusOK (v : BitVec 16) : Bool := v.getLsbD 0

/-- R27: the field REASON, bits 4:1. -/
def statusReason (v : BitVec 16) : BitVec 4 := v.extractLsb' 1 4

end Sys2Proof.Machine
end

