-- ==== Sys2Proof/Machine/Ops.lean ====
section
/-! DEFINITION. The shared operations: the buffers' cells (spec/20_memory.md R50 to R56), the end of a
command (spec/60_exceptions.md R184, R185), and the writes of results. -/

namespace Sys2Proof.Machine

/-! ### Buffers -/

/-- The value written to cell `i` since reset, if any. -/
def Memory.get? {α : Type} : Memory α → Nat → Option α
  | [], _ => none
  | (j, v) :: m, i => if j = i then some v else Memory.get? m i

/-- Write `v` to cell `i`. -/
def Memory.set {α : Type} : Memory α → Nat → α → Memory α
  | [], i, v => [(i, v)]
  | (j, w) :: m, i, v =>
    if i < j then (i, v) :: (j, w) :: m
    else if i = j then (i, v) :: m
    else (j, w) :: Memory.set m i v

/-- Write the values `xs` to the cells from `k` on: `BUF[k + i] <- xs[i]`. -/
def Memory.writeFrom {α : Type} (m : Memory α) (k : Nat) : List α → Memory α
  | [] => m
  | x :: xs => Memory.set (Memory.writeFrom m (k + 1) xs) k x

/-- The canonical form: indices strictly rising. No entry can equal what an unlisted index reads as, since an
unlisted index holds no written value. -/
abbrev Memory.wf {α : Type} (m : Memory α) : Prop := (m.map Prod.fst).Pairwise (· < ·)

/-- Every written cell lies below the capacity (R50 to R52). -/
abbrev Memory.within {α : Type} (m : Memory α) (cap : Nat) : Prop := ∀ c ∈ m, c.1 < cap

/-- R50, R54: the value of IBUF cell `i`: the last value written since reset, else its free value. -/
def ibufCell (s : State) (i : Nat) : Bool :=
  (Memory.get? s.ibuf i).getD (Config.freeIbufBit s.resetEpoch i)

/-- R51, R54: the value of OBUF cell `i`. -/
def obufCell (s : State) (i : Nat) : Bool :=
  (Memory.get? s.obuf i).getD (Config.freeObufBit s.resetEpoch i)

/-- R52, R54: the value of PBUF cell `j`. -/
def pbufCell (s : State) (j : Nat) : Byte :=
  (Memory.get? s.pbuf j).getD (Config.freePbufByte s.resetEpoch j)

/-- R22: `IBUF_SEQ`, the bits `IBUF[0..IBUF_LEN)`. -/
def ibufSeq (s : State) : BitSeq := (List.range s.ibufLen.toNat).map (ibufCell s)

/-- R22: `OBUF_SEQ`, the bits `OBUF[0..OBUF_LEN)`. -/
def obufSeq (s : State) : BitSeq := (List.range s.obufLen.toNat).map (obufCell s)

/-- R22: `PBUF_SEQ`, the bytes `PBUF[0..PBUF_LEN)`. -/
def pbufSeq (s : State) : List Byte := (List.range s.pbufLen.toNat).map (pbufCell s)

/-! ### The end of a command -/

/-- R184: end the command successfully, with the writes it made. -/
def succeed (s : State) : State := { s with status := statusSuccess }

/-- R185: end the command with reason `r`: only STATUS changes. `s` is the state before the command. -/
def fail (r : Reason) (s : State) : State := { s with status := statusFailure r }

/-- R66, R184, R185: a command's end. `before` is the state when CMD was written; `r` is the state with the
command's writes, or the first failure it reached, which discards them all. -/
def complete (before : State) (r : Except Reason State) : Host.Outcome State Fault Refusal :=
  match r with
  | .ok s => .next (succeed s)
  | .error e => .next (fail e before)

/-- R26, R73: CMD holds the word just written while its command executes and after. -/
def latchCmd (w : Word) (s : State) : State := { s with cmd := w }

/-- R95: the effect of an illegal command word. -/
def illegal (s : State) : Host.Outcome State Fault Refusal := .next (fail .illegalCmd s)

/-! ### Writes of results -/

/-- R28: write RES. -/
def setRes (v : BitVec 32) (s : State) : State := { s with res := v }

/-- R56: `emit(out)`. -/
def emit (s : State) (out : BitSeq) : Except Reason State :=
  if out.length > s.par.obufCap then .error .bufferOverflow
  else .ok { s with obuf := Memory.writeFrom s.obuf 0 out, obufLen := BitVec.ofNat 32 out.length }

/-- R171: fill IBUF with a sequence and set IBUF_LEN to its length. -/
def fillIbuf (s : State) (x : BitSeq) : Except Reason State :=
  if x.length > s.par.ibufCap then .error .bufferOverflow
  else .ok { s with ibuf := Memory.writeFrom s.ibuf 0 x, ibufLen := BitVec.ofNat 32 x.length }

/-- R155, R157: write a decoded payload to PBUF and its length to PBUF_LEN. -/
def fillPbuf (s : State) (p : List Byte) : Except Reason State :=
  if p.length > s.par.pbufCap then .error .bufferOverflow
  else .ok { s with pbuf := Memory.writeFrom s.pbuf 0 p, pbufLen := BitVec.ofNat 32 p.length }

end Sys2Proof.Machine
end

