-- ==== Sys2Proof/Machine/Control.lean ====
section
/-! DEFINITION. The control commands (spec/45_control.md): NOP, XFER. -/

namespace Sys2Proof.Machine

/-- R170: NOP. -/
def execNop (s : State) : Host.Outcome State Fault Refusal := complete s (.ok s)

/-- R171: XFER. -/
def execXfer (s : State) : Host.Outcome State Fault Refusal := complete s (fillIbuf s (obufSeq s))

end Sys2Proof.Machine
end

