-- ==== Sys2Proof/Machine/Operands.lean ====
section
/-! DEFINITION. Conversions between integers, bytes and bit sequences (spec/30_encoding.md R81 to R86). -/

namespace Sys2Proof.Machine

/-- The `w` low bits of `v`, most significant first (R57). -/
def msbBits (w v : Nat) : BitSeq := (List.range w).map fun i => v.testBit (w - 1 - i)

/-- R81: `intToBits(v, n)`, `n` a byte width; `none` is the source's OVERFLOW. -/
def intToBits (v n : Nat) : Option BitSeq :=
  if v ≥ 2 ^ (8 * n) then none else some (msbBits (8 * n) v)

/-- R82: `bitsToUInt(s)`, the unsigned big-endian value. -/
def bitsToUInt (s : BitSeq) : Nat := s.foldl (fun a b => 2 * a + b.toNat) 0

/-- R84: the 4 bits of a group, first bit most significant. -/
def seq4 (g : Group) : BitSeq := msbBits 4 g.toNat

/-- R84: the 5 bits of a codeword, first bit most significant. -/
def seq5 (c : Codeword) : BitSeq := msbBits 5 c.toNat

/-- R86: `b48`, `intToBits(v, 6)` of a value in range (R81: every command checks the range first; log 17). -/
def b48 (v : Nat) : BitSeq := msbBits 48 v

/-- R86: `b16`, `intToBits(v, 2)` of a value in range. -/
def b16 (v : Nat) : BitSeq := msbBits 16 v

/-- R86: `b32`, `intToBits(v, 4)`; a CRC value is always in range. -/
def b32 (v : BitVec 32) : BitSeq := msbBits 32 v.toNat

/-- R59, R83: the 8 bits of a byte. -/
def bitsOfByte (x : Byte) : BitSeq := msbBits 8 x.toNat

/-- R83: the bits of a byte list, in order. -/
def bitsOfBytes (p : List Byte) : BitSeq := p.flatMap bitsOfByte

/-- The first `n` chunks of `k` bits of `s`, left to right. -/
def takeChunks (k : Nat) : Nat → BitSeq → List BitSeq
  | 0, _ => []
  | n + 1, s => s.take k :: takeChunks k n (s.drop k)

/-- R85: `chunks(s, k)`. -/
def chunks (s : BitSeq) (k : Nat) : List BitSeq := takeChunks k (s.length / k) s

/-- R60, R83: `bytesOf(s)`, each byte the value of 8 consecutive bits. -/
def bytesOf (s : BitSeq) : List Byte := (chunks s 8).map fun t => BitVec.ofNat 8 (bitsToUInt t)

/-- R20: the half-open slice `s[a..b)`. -/
def slice (s : BitSeq) (a b : Nat) : BitSeq := (s.take b).drop a

end Sys2Proof.Machine
end

