-- ==== Sys2Proof/Machine/Crc.lean ====
section
/-! DEFINITION. The CRC-32 unit CRCU (spec/43_crc32.md): CRC_INIT, CRC_BYTE, CRC_FINAL, CRC32. -/

namespace Sys2Proof.Machine

/-- R142: one of the eight shifts of the one-byte step. -/
def crcShift (a : BitVec 32) : BitVec 32 :=
  if a.getLsbD 0 then (a >>> 1) ^^^ Config.crcPoly else a >>> 1

/-- R142: `crcByte(A, x)`; the byte is consumed least significant bit first. -/
def crcByte (a : BitVec 32) (x : Byte) : BitVec 32 := Nat.repeat crcShift 8 (a ^^^ x.setWidth 32)

/-- R143: `crc32(p)`. -/
def crc32 (p : List Byte) : BitVec 32 := p.foldl crcByte Config.crcInit ^^^ Config.crcXorOut

/-- R146: CRC_INIT. -/
def execCrcInit (s : State) : Host.Outcome State Fault Refusal :=
  complete s (.ok { s with crcAcc := Config.crcInit })

/-- R147: CRC_BYTE Y. -/
def execCrcByte (y : Byte) (s : State) : Host.Outcome State Fault Refusal :=
  complete s (.ok { s with crcAcc := crcByte s.crcAcc y })

/-- R148: CRC_FINAL; CRC_ACC is not changed. -/
def execCrcFinal (s : State) : Host.Outcome State Fault Refusal :=
  complete s (.ok (setRes (s.crcAcc ^^^ Config.crcXorOut) s))

/-- R149: CRC32. -/
def execCrc32 (s : State) : Host.Outcome State Fault Refusal :=
  complete s (.ok (setRes (crc32 (pbufSeq s)) s))

end Sys2Proof.Machine
end

