-- ==== Sys2Proof/Machine/LineCode.lean ====
section
/-! DEFINITION. The 4B/5B line-code unit LCU (spec/40_line_coding.md): LC_EXP4, LC_CON5, LC_EXPAND,
LC_CONTRACT. -/

namespace Sys2Proof.Machine

/-- R41: the ROM LC_EXP, entry `g` is `LC_TABLE(g)`. -/
def lcExp (table : Vector Codeword 16) (g : Group) : Codeword := table.get ⟨g.toNat, g.isLt⟩

/-- R41: one entry of the ROM LC_CON. -/
structure ConEntry where
  valid : Bool
  group : Group
deriving DecidableEq, Repr

/-- R41, R101: the ROM LC_CON. Entry `c` is valid with group `g` if `LC_EXP[g] = c`, else invalid with group 0.
For an injective table (R13) at most one `g` qualifies; the first one is taken. -/
def lcCon (table : Vector Codeword 16) (c : Codeword) : ConEntry :=
  match ((List.range 16).map (BitVec.ofNat 4)).find? (fun g => lcExp table g == c) with
  | some g => ⟨true, g⟩
  | none => ⟨false, 0⟩

/-- R103: `expand`, total. -/
def expand (table : Vector Codeword 16) (t : BitSeq) : Except Reason BitSeq :=
  .ok (seq5 (lcExp table (BitVec.ofNat 4 (bitsToUInt t))))

/-- R104: `contract`, the validity check. -/
def contract (table : Vector Codeword 16) (t : BitSeq) : Except Reason BitSeq :=
  let e := lcCon table (BitVec.ofNat 5 (bitsToUInt t))
  if e.valid then .ok (seq4 e.group) else .error .invalidCodeword

/-- R105, the loop: look every group up, left to right, stopping at the first failure. -/
def codeChunks (f : BitSeq → Except Reason BitSeq) : List BitSeq → Except Reason BitSeq
  | [] => .ok []
  | t :: ts =>
    match f t with
    | .error e => .error e
    | .ok v =>
      match codeChunks f ts with
      | .error e => .error e
      | .ok out => .ok (v ++ out)

/-- R105: `changeCoding(s, f, k)`; the length check comes first. -/
def changeCoding (s : BitSeq) (f : BitSeq → Except Reason BitSeq) (k : Nat) : Except Reason BitSeq :=
  if s.length % k ≠ 0 then .error .misaligned else codeChunks f (chunks s k)

/-- End a command whose result is a sequence to emit, or a failure. -/
def emitResult (s : State) (r : Except Reason BitSeq) : Host.Outcome State Fault Refusal :=
  match r with
  | .error e => complete s (.error e)
  | .ok out => complete s (emit s out)

/-- R106: LC_EXP4 G. -/
def execLcExp4 (g : Group) (s : State) : Host.Outcome State Fault Refusal :=
  complete s (.ok (setRes ((lcExp s.par.lcTable g).setWidth 32) s))

/-- R107: LC_CON5 C. -/
def execLcCon5 (c : Codeword) (s : State) : Host.Outcome State Fault Refusal :=
  let e := lcCon s.par.lcTable c
  if e.valid then complete s (.ok (setRes (e.group.setWidth 32) s))
  else complete s (.error .invalidCodeword)

/-- R108: LC_EXPAND. -/
def execLcExpand (s : State) : Host.Outcome State Fault Refusal :=
  emitResult s (changeCoding (ibufSeq s) (expand s.par.lcTable) 4)

/-- R109: LC_CONTRACT. -/
def execLcContract (s : State) : Host.Outcome State Fault Refusal :=
  emitResult s (changeCoding (ibufSeq s) (contract s.par.lcTable) 5)

end Sys2Proof.Machine
end

