-- ==== Sys2Proof/Machine/Nrzi.lean ====
section
/-! DEFINITION. The NRZI differential unit NRZU (spec/41_nrzi.md): NRZI_SEED, NRZI_EBIT, NRZI_DBIT, NRZI_ENC,
NRZI_DEC. -/

namespace Sys2Proof.Machine

/-- R35: the field NRZ_LVL, bit 0. -/
def nrzLvl (v : BitVec 32) : Bool := v.getLsbD 0

/-- R35: the field NRZ_PREV, bit 1. -/
def nrzPrev (v : BitVec 32) : Bool := v.getLsbD 1

/-- R35: the register NRZ of its two fields; the reserved bits read 0 (log 12). -/
def nrzWord (lvl prev : Bool) : BitVec 32 := 0#30 ++ BitVec.ofBool prev ++ BitVec.ofBool lvl

/-- R112: `toDifferential(b, S)`; the head's output is the level the rest starts from. -/
def toDifferential : BitSeq → Bool → BitSeq
  | [], _ => []
  | b :: bs, level => (level ^^ b) :: toDifferential bs (level ^^ b)

/-- R113: `fromDifferential(e, S)`; the head is the reference the rest starts from. -/
def fromDifferential : BitSeq → Bool → BitSeq
  | [], _ => []
  | e :: es, reference => (e ^^ reference) :: fromDifferential es e

/-- The 32-bit result of one bit, `zext_32`. -/
def bitRes (b : Bool) : BitVec 32 := (BitVec.ofBool b).setWidth 32

/-- R115: NRZI_SEED S. -/
def execNrziSeed (seed : Bool) (s : State) : Host.Outcome State Fault Refusal :=
  complete s (.ok { s with nrz := nrzWord seed seed })

/-- R116: NRZI_EBIT B; RES receives the new level. -/
def execNrziEbit (b : Bool) (s : State) : Host.Outcome State Fault Refusal :=
  let level := nrzLvl s.nrz ^^ b
  complete s (.ok (setRes (bitRes level) { s with nrz := nrzWord level (nrzPrev s.nrz) }))

/-- R117: NRZI_DBIT B. -/
def execNrziDbit (b : Bool) (s : State) : Host.Outcome State Fault Refusal :=
  complete s (.ok (setRes (bitRes (b ^^ nrzPrev s.nrz)) { s with nrz := nrzWord (nrzLvl s.nrz) b }))

/-- R118: NRZI_ENC S. -/
def execNrziEnc (seed : Bool) (s : State) : Host.Outcome State Fault Refusal :=
  emitResult s (.ok (toDifferential (ibufSeq s) seed))

/-- R119: NRZI_DEC S. -/
def execNrziDec (seed : Bool) (s : State) : Host.Outcome State Fault Refusal :=
  emitResult s (.ok (fromDifferential (ibufSeq s) seed))

end Sys2Proof.Machine
end

