-- ==== Sys2Proof/Machine/Preamble.lean ====
section
/-! DEFINITION. The preamble unit PRU (spec/42_preamble.md): PRE_GEN, PRE_MATCH, PM_RESET, PM_BIT. -/

namespace Sys2Proof.Machine

/-- R131: the octet `10101010`. -/
def preOctet : BitSeq := [true, false, true, false, true, false, true, false]

/-- R131: the terminator octet `10101011`. -/
def preTerminator : BitSeq := [true, false, true, false, true, false, true, true]

/-- R41, R131: the ROM PRE_ROM, `rep(7, 10101010) ++ 10101011`. -/
def preRom : BitSeq := (List.replicate 7 preOctet).flatten ++ preTerminator

/-- R132: `matchPreamble(s)`. -/
def matchPreamble (s : BitSeq) : Bool := decide (64 ≤ s.length) && (s.take 64 == preRom)

/-- R36: the field PM_CNT, bits 6:0. -/
def pmCnt (v : BitVec 32) : BitVec 7 := v.extractLsb' 0 7

/-- R36: the field PM_ST, bits 9:8. -/
def pmSt (v : BitVec 32) : BitVec 2 := v.extractLsb' 8 2

/-- R36: PM_ST = 0. -/
def pmMatching : BitVec 2 := 0#2
/-- R36: PM_ST = 1. -/
def pmMatched : BitVec 2 := 1#2
/-- R36: PM_ST = 2. -/
def pmFailed : BitVec 2 := 2#2

/-- R36: the register PM of its two fields; the reserved bits read 0 (log 12). -/
def pmWord (cnt : BitVec 7) (st : BitVec 2) : BitVec 32 := 0#22 ++ st ++ 0#1 ++ cnt

/-- R135: PM after one more bit. MATCHED and FAILED are sticky. (MATCHING with a count above 63 is in no
reachable state, R36; there the model takes the mismatch arm, log 8.) -/
def pmNext (pm : BitVec 32) (b : Bool) : BitVec 32 :=
  if pmSt pm = pmMatching then
    if preRom[(pmCnt pm).toNat]? = some b then
      let cnt := pmCnt pm + 1
      pmWord cnt (if cnt = 64 then pmMatched else pmMatching)
    else pmWord (pmCnt pm) pmFailed
  else pm

/-- R133: PRE_GEN. -/
def execPreGen (s : State) : Host.Outcome State Fault Refusal := emitResult s (.ok preRom)

/-- R136: PRE_MATCH. -/
def execPreMatch (s : State) : Host.Outcome State Fault Refusal :=
  complete s (.ok (setRes (bitRes (matchPreamble (ibufSeq s))) s))

/-- R134: PM_RESET. -/
def execPmReset (s : State) : Host.Outcome State Fault Refusal :=
  complete s (.ok { s with pm := pmWord 0 pmMatching })

/-- R135: PM_BIT B; RES receives the new PM_ST. -/
def execPmBit (b : Bool) (s : State) : Host.Outcome State Fault Refusal :=
  let pm := pmNext s.pm b
  complete s (.ok (setRes ((pmSt pm).setWidth 32) { s with pm := pm }))

end Sys2Proof.Machine
end

