-- ==== Sys2Proof/Machine/Frame.lean ====
section
/-! DEFINITION. The frame unit FRU (spec/44_frame.md): FRAME_MARSHAL, FRAME_SPLIT, FRAME_ENC, FRAME_DEC. -/

namespace Sys2Proof.Machine

/-- R150, step 1: the raw frame before its CRC, target first (R87). -/
def rawHead (src tgt : Nat) (p : List Byte) : BitSeq :=
  b48 tgt ++ b48 src ++ b16 p.length ++ bitsOfBytes p

/-- R150: `marshal(src, tgt, p)`. -/
def marshal (src tgt : Nat) (p : List Byte) : Except Reason BitSeq :=
  if tgt ≥ 2 ^ Config.addrBits ∨ src ≥ 2 ^ Config.addrBits then .error .addrOverflow
  else if p.length > Config.maxPayload then .error .payloadOverflow
  else .ok (rawHead src tgt p ++ b32 (crc32 (bytesOf (rawHead src tgt p))))

/-- R151: `encodeFrame(src, tgt, p)`. Step 3 cannot fail; the failure arm only carries its type. -/
def encodeFrame (table : Vector Codeword 16) (src tgt : Nat) (p : List Byte) : Except Reason BitSeq :=
  match marshal src tgt p with
  | .error e => .error e
  | .ok raw =>
    match changeCoding raw (expand table) 4 with
    | .error e => .error e
    | .ok lc => .ok (preRom ++ toDifferential lc Config.sysSeed)

/-- R152: the three fields a valid frame yields. -/
structure Frame where
  src : Nat
  tgt : Nat
  payload : List Byte
deriving DecidableEq, Repr

/-- R152: `splitFrame(r)`, its checks in the order written. The CRC is the last 32 bits (90_conflicts.md C1). -/
def splitFrame (r : BitSeq) : Except Reason Frame :=
  let n := r.length
  if n < Config.minRawBits then .error .shortFrame
  else if n % 8 ≠ 0 then .error .lengthMismatch
  else
    let target := slice r 0 48
    let source := slice r 48 96
    let declared := slice r 96 112
    let body := slice r 112 (n - 32)
    let crc := slice r (n - 32) n
    if bitsToUInt crc ≠ (crc32 (bytesOf (slice r 0 (n - 32)))).toNat then .error .crcMismatch
    else if body.length % 8 ≠ 0 ∨ body.length / 8 ≠ bitsToUInt declared then .error .lengthMismatch
    else .ok ⟨bitsToUInt source, bitsToUInt target, bytesOf body⟩

/-- R153: `decodeFrame(x)`, its checks in the source's order. -/
def decodeFrame (table : Vector Codeword 16) (x : BitSeq) : Except Reason Frame :=
  if x.length < Config.minRawBits then .error .shortInput
  else if matchPreamble x = false then .error .noPreamble
  else
    match changeCoding (fromDifferential (x.drop Config.preBits) Config.sysSeed) (contract table) 5 with
    | .error e => .error e
    | .ok raw => splitFrame raw

/-- R155, R157: deliver the three fields to SRC, TGT, PBUF and PBUF_LEN. -/
def deliver (s : State) (f : Frame) : Except Reason State :=
  fillPbuf { s with src := BitVec.ofNat 64 f.src, tgt := BitVec.ofNat 64 f.tgt } f.payload

/-- End a command whose result is a frame to deliver, or a failure. -/
def deliverResult (s : State) (r : Except Reason Frame) : Host.Outcome State Fault Refusal :=
  match r with
  | .error e => complete s (.error e)
  | .ok f => complete s (deliver s f)

/-- R154: FRAME_MARSHAL. -/
def execFrameMarshal (s : State) : Host.Outcome State Fault Refusal :=
  emitResult s (marshal s.src.toNat s.tgt.toNat (pbufSeq s))

/-- R155: FRAME_SPLIT. -/
def execFrameSplit (s : State) : Host.Outcome State Fault Refusal :=
  deliverResult s (splitFrame (ibufSeq s))

/-- R156: FRAME_ENC. -/
def execFrameEnc (s : State) : Host.Outcome State Fault Refusal :=
  emitResult s (encodeFrame s.par.lcTable s.src.toNat s.tgt.toNat (pbufSeq s))

/-- R157: FRAME_DEC. -/
def execFrameDec (s : State) : Host.Outcome State Fault Refusal :=
  deliverResult s (decodeFrame s.par.lcTable (ibufSeq s))

end Sys2Proof.Machine
end

