-- ==== Sys2Proof/Machine/Dispatch.lean ====
section
/-! DEFINITION. One arm per command of spec/30_encoding.md R94. -/

namespace Sys2Proof.Machine

def exec (i : Instr) (s : State) : Host.Outcome State Fault Refusal :=
  match i with
  | .nop => Sys2Proof.Machine.execNop s
  | .lcExp4 g => Sys2Proof.Machine.execLcExp4 g s
  | .lcCon5 c => Sys2Proof.Machine.execLcCon5 c s
  | .lcExpand => Sys2Proof.Machine.execLcExpand s
  | .lcContract => Sys2Proof.Machine.execLcContract s
  | .nrziSeed b => Sys2Proof.Machine.execNrziSeed b s
  | .nrziEbit b => Sys2Proof.Machine.execNrziEbit b s
  | .nrziDbit b => Sys2Proof.Machine.execNrziDbit b s
  | .nrziEnc b => Sys2Proof.Machine.execNrziEnc b s
  | .nrziDec b => Sys2Proof.Machine.execNrziDec b s
  | .preGen => Sys2Proof.Machine.execPreGen s
  | .preMatch => Sys2Proof.Machine.execPreMatch s
  | .pmReset => Sys2Proof.Machine.execPmReset s
  | .pmBit b => Sys2Proof.Machine.execPmBit b s
  | .crcInit => Sys2Proof.Machine.execCrcInit s
  | .crcByte y => Sys2Proof.Machine.execCrcByte y s
  | .crcFinal => Sys2Proof.Machine.execCrcFinal s
  | .crc32 => Sys2Proof.Machine.execCrc32 s
  | .frameMarshal => Sys2Proof.Machine.execFrameMarshal s
  | .frameSplit => Sys2Proof.Machine.execFrameSplit s
  | .frameEnc => Sys2Proof.Machine.execFrameEnc s
  | .frameDec => Sys2Proof.Machine.execFrameDec s
  | .xfer => Sys2Proof.Machine.execXfer s

end Sys2Proof.Machine
end

