-- ==== Sys2Proof/Machine/HostPort.lean ====
section
/-! DEFINITION. The host's accesses other than a write to CMD (spec/20_memory.md R55; the registers' own
rules, spec/10_state.md R25 to R38). -/

namespace Sys2Proof.Machine

/-- R25: the register numbers. -/
def regCmd : Nat := 0

/-- R55, R25, R37: `HostReadReg(r)`, zero-extended to the widest register; a reserved number reads 0. -/
def readReg (s : State) (r : Nat) : BitVec 64 :=
  match r with
  | 0 => s.cmd.setWidth 64
  | 1 => s.status.setWidth 64
  | 2 => s.res.setWidth 64
  | 3 => s.src
  | 4 => s.tgt
  | 5 => s.ibufLen.setWidth 64
  | 6 => s.obufLen.setWidth 64
  | 7 => s.pbufLen.setWidth 64
  | 8 => s.crcAcc.setWidth 64
  | 9 => s.nrz.setWidth 64
  | 10 => s.pm.setWidth 64
  | _ => 0#64

/-- R31: a host write to IBUF_LEN, ignored above the capacity. -/
def writeIbufLen (v : BitVec 32) (s : State) : State :=
  if v.toNat ≤ s.par.ibufCap then { s with ibufLen := v } else s

/-- R33: a host write to PBUF_LEN, ignored above the capacity. -/
def writePbufLen (v : BitVec 32) (s : State) : State :=
  if v.toNat ≤ s.par.pbufCap then { s with pbufLen := v } else s

/-- R55: `HostWriteReg(r, v)` for `r` other than CMD. The value is truncated to the register's width before the
register's rule looks at it (DEDUCED, log 6). Read-only and reserved registers ignore the write (R37, R38). -/
def writeReg (r v : Nat) (s : State) : State :=
  match r with
  | 3 => { s with src := BitVec.ofNat 64 v }
  | 4 => { s with tgt := BitVec.ofNat 64 v }
  | 5 => writeIbufLen (BitVec.ofNat 32 v) s
  | 7 => writePbufLen (BitVec.ofNat 32 v) s
  | _ => s

/-- R55: `HostWriteIBUF(i, b)`. -/
def hostWriteIbuf (i : Nat) (b : Bool) (s : State) : State :=
  if i < s.par.ibufCap then { s with ibuf := Memory.set s.ibuf i b } else s

/-- R55: `HostReadIBUF(i)`. -/
def hostReadIbuf (s : State) (i : Nat) : Bool := if i < s.par.ibufCap then ibufCell s i else false

/-- R55: `HostReadOBUF(i)`. -/
def hostReadObuf (s : State) (i : Nat) : Bool := if i < s.par.obufCap then obufCell s i else false

/-- R55: `HostWritePBUF(j, x)`. -/
def hostWritePbuf (j : Nat) (x : Byte) (s : State) : State :=
  if j < s.par.pbufCap then { s with pbuf := Memory.set s.pbuf j x } else s

/-- R55: `HostReadPBUF(j)`. -/
def hostReadPbuf (s : State) (j : Nat) : Byte := if j < s.par.pbufCap then pbufCell s j else 0#8

/-- R200: `HostReset()`: the reset state under the run's parameters (R202), with fresh free values in every
buffer cell (R54). What the host has still to do is the host's, not AMCORE's, and stays (log 1). -/
def hostReset (s : State) : State :=
  { State.reset with
    par := s.par
    resetEpoch := s.resetEpoch + 1
    pending := s.pending }

/-- The host takes its next access: it leaves the queue and the previous access's reply is gone. -/
def takeAccess (rest : List HostAccess) (s : State) : State := { s with pending := rest, reply := none }

/-- R67: a read returns its value and changes nothing else. -/
def answer (v : BitVec 64) (s : State) : State := { s with reply := some v }

/-- The value of a bit as a host reads it. -/
def bitReply (b : Bool) : BitVec 64 := (BitVec.ofBool b).setWidth 64

/-- R55: the effect of every access but a write to CMD. (A write to CMD changes nothing here; Step.lean issues its
command.) -/
def access (a : HostAccess) (s : State) : State :=
  match a with
  | .writeReg r v => writeReg r v s
  | .readReg r => answer (readReg s r) s
  | .writeIbuf i b => hostWriteIbuf i b s
  | .readIbuf i => answer (bitReply (hostReadIbuf s i)) s
  | .readObuf i => answer (bitReply (hostReadObuf s i)) s
  | .writePbuf j x => hostWritePbuf j x s
  | .readPbuf j => answer ((hostReadPbuf s j).setWidth 64) s
  | .reset => hostReset s

/-- R26, R55: the command word a host access issues: the value written to CMD, truncated to 32 bits; `none` for every
other access. -/
def issuedWord (a : HostAccess) : Option Word :=
  match a with
  | .writeReg r v => if r = regCmd then some (BitVec.ofNat 32 v) else none
  | _ => none

/-- The access that issues the table word `w`: its low `nbits` bits written to CMD. -/
def issueAccess (nbits w : Nat) : HostAccess := .writeReg regCmd (w % 2 ^ nbits)

end Sys2Proof.Machine
end

