-- ==== Sys2Proof/Machine/Step.lean ====
section
/-! DEFINITION. One step: the next host access, and for a write to CMD its command (spec/70_reset_and_hazards.md
R205; log 1). -/

namespace Sys2Proof.Machine

/-- R26, R95: a host write of `w` to CMD: CMD holds `w`, and the command, or the failure of an illegal word, is executed
to completion. -/
def issue (w : Word) (s : State) : Host.Outcome State Fault Refusal :=
  match decode w with
  | .ok i => exec i (latchCmd w s)
  | .error _ => illegal (latchCmd w s)

/-- R205: the host's next access. With none pending nothing happens and every piece of state is kept (R196; log 1). -/
def step (s : State) : Host.Outcome State Fault Refusal :=
  match s.pending with
  | [] => .next s
  | a :: rest =>
    match issuedWord a with
    | some w => issue w (takeAccess rest s)
    | none => .next (access a (takeAccess rest s))

/-- The machine's program is the host's sequence of accesses: to run the table word `w` next, the host writes it
to CMD next (log 1). -/
def State.withFetchWord (s : State) (nbits w : Nat) : State :=
  { s with pending := issueAccess nbits w :: s.pending }

end Sys2Proof.Machine
end

