-- ==== Sys2Proof/Safety.lean ====
section
/-! DEFINITION. The terms claims are stated in: legal register values, the invariant of the state, frames,
sequences of commands. -/

namespace Sys2Proof.Machine

/-! ### Legal values -/

/-- R27: the values STATUS can hold: 0x0000, 0x0001, and `REASON << 1` for REASON in 1 to 11. -/
abbrev statusLegal (v : BitVec 16) : Prop := v.toNat = 1 ∨ (v.toNat % 2 = 0 ∧ v.toNat ≤ 22)

/-- R35: the reserved bits 31:2 of NRZ read 0. -/
abbrev nrzLegal (v : BitVec 32) : Prop := v.toNat < 4

/-- R36: bit 7 and bits 31:10 of PM read 0, PM_CNT is at most 64, PM_ST is never 3, and PM_ST = MATCHED if and
only if PM_CNT = 64. -/
abbrev pmLegal (v : BitVec 32) : Prop :=
  v.getLsbD 7 = false ∧ v.toNat < 2 ^ 10 ∧ (pmCnt v).toNat ≤ 64 ∧ pmSt v ≠ 3#2 ∧
    (pmSt v = pmMatched ↔ (pmCnt v).toNat = 64)

/-- R13: LC_TABLE is injective. -/
abbrev injectiveTable (table : Vector Codeword 16) : Prop :=
  ∀ g h : Group, lcExp table g = lcExp table h → g = h

/-- R95, with R93 and R94 written out as numbers: the word's OPC (its low 8 bits) is assigned and what stands above
OPC (IMM8, and RSVD above it) is below the bound of the opcode's class: 1 for N, 2 for S, 16 for G, 32 for C, 256 for Y. -/
abbrev legalWord (w : Word) : Prop :=
  let opc := w.toNat % 256
  let above := w.toNat / 256
  (opc ∈ [0x00, 0x03, 0x04, 0x10, 0x11, 0x12, 0x18, 0x1A, 0x1B, 0x20, 0x21, 0x22, 0x23, 0x28] ∧ above < 1) ∨
    (opc ∈ [0x08, 0x09, 0x0A, 0x0B, 0x0C, 0x13] ∧ above < 2) ∨ (opc = 0x01 ∧ above < 16) ∨
      (opc = 0x02 ∧ above < 32) ∨ (opc = 0x19 ∧ above < 256)

/-! ### The invariant -/

/-- What every reachable state satisfies (R13, R19, R27, R31 to R33, R35, R36), with the canonical form of the buffers,
and the fact that every cell of OBUF_SEQ has been written: OBUF_LEN never runs ahead of the cells. -/
structure StateInv (s : State) : Prop where
  params : s.par.ok
  status : statusLegal s.status
  nrz : nrzLegal s.nrz
  pm : pmLegal s.pm
  ibufLen : s.ibufLen.toNat ≤ s.par.ibufCap
  obufLen : s.obufLen.toNat ≤ s.par.obufCap
  pbufLen : s.pbufLen.toNat ≤ s.par.pbufCap
  ibufWf : Memory.wf s.ibuf
  obufWf : Memory.wf s.obuf
  pbufWf : Memory.wf s.pbuf
  ibufWithin : Memory.within s.ibuf s.par.ibufCap
  obufWithin : Memory.within s.obuf s.par.obufCap
  pbufWithin : Memory.within s.pbuf s.par.pbufCap
  obufWritten : ∀ i < s.obufLen.toNat, (Memory.get? s.obuf i).isSome

/-! ### Frames -/

/-- Every register but those numbered in `changed` reads as before (the numbers of R25). -/
def keepsRegs (changed : List Nat) (s t : State) : Prop := ∀ r, r ∉ changed → readReg t r = readReg s r

/-- Every cell of IBUF reads as before. -/
def keepsIbuf (s t : State) : Prop := ∀ i, ibufCell t i = ibufCell s i

/-- Every cell of OBUF reads as before. -/
def keepsObuf (s t : State) : Prop := ∀ i, obufCell t i = obufCell s i

/-- Every cell of PBUF reads as before. -/
def keepsPbuf (s t : State) : Prop := ∀ j, pbufCell t j = pbufCell s j

/-- The parameters (the ROM LC_EXP among them) and the model's own fields are as before. -/
def keepsOwn (s t : State) : Prop :=
  t.par = s.par ∧ t.resetEpoch = s.resetEpoch ∧ t.pending = s.pending ∧ t.reply = s.reply

/-- Nothing but the registers numbered in `changed` differs. -/
def changesOnlyRegs (changed : List Nat) (s t : State) : Prop :=
  keepsRegs changed s t ∧ keepsIbuf s t ∧ keepsObuf s t ∧ keepsPbuf s t ∧ keepsOwn s t

/-- R56, R184: from `s`, a command emitted `out` and succeeded: `OBUF[k]` is `out[k]` below `len(out)` and as before from
there on, OBUF_LEN (register 6) is `len(out)`, STATUS (register 1) is 0x0001, and nothing else differs. -/
def emitted (s t : State) (out : BitSeq) : Prop :=
  (∀ k, obufCell t k = (out[k]?).getD (obufCell s k)) ∧ t.obufLen.toNat = out.length ∧
    t.status = 0x0001#16 ∧ keepsRegs [1, 6] s t ∧ keepsIbuf s t ∧ keepsPbuf s t ∧ keepsOwn s t

/-- R155, R157: from `s`, a command delivered a source, a target and a payload and succeeded: SRC (register 3), TGT (4),
PBUF_LEN (7) and the PBUF cells below the payload's length hold them, STATUS is 0x0001, and nothing else differs. -/
def delivered (s t : State) (src tgt : Nat) (payload : List Byte) : Prop :=
  t.src.toNat = src ∧ t.tgt.toNat = tgt ∧ t.pbufLen.toNat = payload.length ∧
    (∀ j, pbufCell t j = (payload[j]?).getD (pbufCell s j)) ∧ t.status = 0x0001#16 ∧
      keepsRegs [1, 3, 4, 7] s t ∧ keepsIbuf s t ∧ keepsObuf s t ∧ keepsOwn s t

/-! ### Command words -/

/-- A command's encoding and its ILLEGAL_CMD failure (R93 to R95): with OPC `opc` and a number `v` below `bound` above it, the
word decodes to `command v`; with anything from `bound` on above OPC (IMM8 outside the class, or RSVD not 0) the word
executes as fail(ILLEGAL_CMD): CMD holds it, STATUS is 0x0016, and nothing else changes. -/
def encodedAs (opc bound : Nat) (command : Nat → Instr) : Prop :=
  (∀ v < bound, decode (BitVec.ofNat 32 (opc + 256 * v)) = .ok (command v)) ∧
    ∀ (w : Word) (s : State), w.toNat % 256 = opc → bound ≤ w.toNat / 256 →
      issue w s = .next { s with cmd := w, status := 0x0016#16 }

/-! ### Sequences of commands -/

/-- The commands one after another, each on the state the one before it left. -/
def execAll : List Instr → State → Host.Outcome State Fault Refusal
  | [], s => .next s
  | i :: is, s =>
    match exec i s with
    | .next t => execAll is t
    | .fault f => .fault f
    | .refused r => .refused r

/-- The commands one after another, the host reading STATUS after each and stopping unless it is 0x0001 (R207). -/
def execChecked : List Instr → State → Host.Outcome State Fault Refusal
  | [], s => .next s
  | i :: is, s =>
    match exec i s with
    | .next t => if t.status = 0x0001#16 then execChecked is t else .next t
    | .fault f => .fault f
    | .refused r => .refused r

/-- R43: the batch commands, which never touch the streaming unit state. -/
def isBatch : Instr → Bool
  | .lcExpand | .lcContract | .nrziEnc _ | .nrziDec _ | .preMatch | .crc32 => true
  | .frameMarshal | .frameSplit | .frameEnc | .frameDec => true
  | .nop | .lcExp4 _ | .lcCon5 _ | .nrziSeed _ | .nrziEbit _ | .nrziDbit _ | .preGen => false
  | .pmReset | .pmBit _ | .crcInit | .crcByte _ | .crcFinal | .xfer => false

end Sys2Proof.Machine
end

