-- ==== Sys2Proof/Certificates/Slice0/Obligations.lean ====
section
/-! DEFINITION. The statements for the provers. Each docstring names the rule of spec/ it formalises; the register
numbers in frames are those of spec/10_state.md R25. -/

open Sys2Proof Sys2Proof.Machine

/-! ### Command words -/

/-- R94, R95: the words of spec/95_test_vectors.md decode to the commands they stand for, and the illegal ones
of V-X2 are refused. -/
def Obligations.SampleWordsDecode : Prop :=
  decode 0x00000000#32 = .ok .nop ∧
  decode 0x00000701#32 = .ok (.lcExp4 7#4) ∧
  decode 0x00001E02#32 = .ok (.lcCon5 0x1E#5) ∧
  decode 0x00000003#32 = .ok .lcExpand ∧
  decode 0x00000004#32 = .ok .lcContract ∧
  decode 0x00000108#32 = .ok (.nrziSeed true) ∧
  decode 0x00000009#32 = .ok (.nrziEbit false) ∧
  decode 0x0000010A#32 = .ok (.nrziDbit true) ∧
  decode 0x0000010B#32 = .ok (.nrziEnc true) ∧
  decode 0x0000000C#32 = .ok (.nrziDec false) ∧
  decode 0x00000010#32 = .ok .preGen ∧
  decode 0x00000113#32 = .ok (.pmBit true) ∧
  decode 0x00006119#32 = .ok (.crcByte 0x61#8) ∧
  decode 0x0000001B#32 = .ok .crc32 ∧
  decode 0x00000022#32 = .ok .frameEnc ∧
  decode 0x00000023#32 = .ok .frameDec ∧
  decode 0x00000028#32 = .ok .xfer ∧
  decode 0x00000005#32 = .error .opcUnassigned ∧
  decode 0x00010000#32 = .error .rsvdNonzero ∧
  decode 0x00000100#32 = .error .immOutsideClass ∧
  decode 0x00001001#32 = .error .immOutsideClass ∧
  decode 0x00002002#32 = .error .immOutsideClass ∧
  decode 0x00000208#32 = .error .immOutsideClass ∧
  decode 0x00016119#32 = .error .rsvdNonzero

/-- R92 to R94, R99: the word a command is encoded as decodes to that command, with every operand at every value. -/
def Obligations.DecodeOfEncodeIsTheCommand : Prop :=
  ∀ i : Instr, decode (encode i) = .ok i

/-- R95: a word the decoder accepts is the one word of the command it gives. -/
def Obligations.EncodeOfDecodeIsTheWord : Prop :=
  ∀ (w : Word) (i : Instr), decode w = .ok i → encode i = w

/-- R93 to R95: the decoder accepts exactly the legal words. -/
def Obligations.DecodeAcceptsExactlyTheLegalWords : Prop :=
  ∀ w : Word, (∃ i, decode w = .ok i) ↔ legalWord w

/-- R95, with R26: an illegal word written to CMD executes as fail(ILLEGAL_CMD): CMD holds the word, STATUS is 0x0016, and
nothing else of AMCORE's changes; every other word is a command. (The queue `pending` and `reply` are the model's own, logs 1 and 2.) -/
def Obligations.IllegalWordsFailAndEveryOtherWordIsACommand : Prop :=
  (∀ (s : State) (v : Nat) (rest : List HostAccess), s.pending = .writeReg 0 v :: rest →
    ¬ legalWord (BitVec.ofNat 32 v) →
      step s = .next { s with pending := rest, reply := none, cmd := BitVec.ofNat 32 v, status := 0x0016#16 }) ∧
  (∀ w : Word, legalWord w → ∃ i, decode w = .ok i)

/-! ### The step, the host's accesses, reset -/

/-- R26, R205: a host write to CMD whose word decodes to the command `i` is one step, and that step is `exec i` on the state
in which CMD holds the word and the access has left the queue (log 1). -/
def Obligations.StepRunsTheDecodedCommand : Prop :=
  ∀ (s : State) (v : Nat) (rest : List HostAccess) (i : Instr), s.pending = .writeReg 0 v :: rest →
    decode (BitVec.ofNat 32 v) = .ok i →
      step s = exec i { s with pending := rest, reply := none, cmd := BitVec.ofNat 32 v }

/-- R183: there are no traps: every step, and every command in it, ends in a next state. -/
def Obligations.StepAlwaysAnswersNext : Prop :=
  (∀ s : State, ∃ t, step s = .next t) ∧ ∀ (i : Instr) (s : State), ∃ t, exec i s = .next t

/-- R13, R19, R27, R31 to R33, R35, R36 and the canonical form of the buffers: every step keeps the invariant. -/
def Obligations.StepKeepsInvariant : Prop :=
  ∀ s t : State, StateInv s → step s = .next t → StateInv t

/-- The reset state of R200 under the default parameters meets the invariant. -/
def Obligations.ResetMeetsInvariant : Prop := StateInv State.reset

/-- R29, R30, R31, R33: a host write to one of the four writable registers. The value is truncated to the register's width
first (the model's reading, log 6); IBUF_LEN and PBUF_LEN ignore a value above their capacity. -/
def Obligations.HostWritesReachTheWritableRegisters : Prop :=
  ∀ (s : State) (r v : Nat) (rest : List HostAccess), s.pending = .writeReg r v :: rest →
    (r = 3 → step s = .next { s with pending := rest, reply := none, src := BitVec.ofNat 64 v }) ∧
    (r = 4 → step s = .next { s with pending := rest, reply := none, tgt := BitVec.ofNat 64 v }) ∧
    (r = 5 → v % 2 ^ 32 ≤ s.par.ibufCap →
      step s = .next { s with pending := rest, reply := none, ibufLen := BitVec.ofNat 32 v }) ∧
    (r = 5 → v % 2 ^ 32 > s.par.ibufCap → step s = .next { s with pending := rest, reply := none }) ∧
    (r = 7 → v % 2 ^ 32 ≤ s.par.pbufCap →
      step s = .next { s with pending := rest, reply := none, pbufLen := BitVec.ofNat 32 v }) ∧
    (r = 7 → v % 2 ^ 32 > s.par.pbufCap → step s = .next { s with pending := rest, reply := none })

/-- R37, R38: a host write to a read-only or reserved register changes no state of AMCORE, and a reserved register
reads 0. The reserved fields are those of STATUS, NRZ and PM, all read-only, and they read 0 in every state that
meets the invariant. (The queue `pending` and `reply` are the model's own, logs 1 and 2.) -/
def Obligations.WritesToReadOnlyAndReservedRegistersAreIgnored : Prop :=
  (∀ (s : State) (r v : Nat) (rest : List HostAccess), s.pending = .writeReg r v :: rest →
    (r ∈ [1, 2, 6, 8, 9, 10] ∨ 11 ≤ r) → step s = .next { s with pending := rest, reply := none }) ∧
  (∀ (s : State) (r : Nat) (rest : List HostAccess), s.pending = .readReg r :: rest → 11 ≤ r →
    step s = .next { s with pending := rest, reply := some 0#64 }) ∧
  (∀ s : State, StateInv s → (∀ k, 5 ≤ k → (readReg s 1).getLsbD k = false) ∧
    (∀ k, 2 ≤ k → (readReg s 9).getLsbD k = false) ∧
    (∀ k, k = 7 ∨ 10 ≤ k → (readReg s 10).getLsbD k = false))

/-- R55, R67, R25: a host read returns the register or cell it names (0 beyond the capacity) and changes nothing of AMCORE's;
`reply` is the model's own place for the value (log 2). -/
def Obligations.HostReadsAnswerAndChangeNothing : Prop :=
  ∀ (s : State) (a : HostAccess) (rest : List HostAccess), s.pending = a :: rest →
    let returns (v : Nat) := step s = .next { s with pending := rest, reply := some (BitVec.ofNat 64 v) }
    (a = .readReg 0 → returns s.cmd.toNat) ∧ (a = .readReg 1 → returns s.status.toNat) ∧
    (a = .readReg 2 → returns s.res.toNat) ∧ (a = .readReg 3 → returns s.src.toNat) ∧
    (a = .readReg 4 → returns s.tgt.toNat) ∧ (a = .readReg 5 → returns s.ibufLen.toNat) ∧
    (a = .readReg 6 → returns s.obufLen.toNat) ∧ (a = .readReg 7 → returns s.pbufLen.toNat) ∧
    (a = .readReg 8 → returns s.crcAcc.toNat) ∧ (a = .readReg 9 → returns s.nrz.toNat) ∧
    (a = .readReg 10 → returns s.pm.toNat) ∧
    (∀ i, a = .readIbuf i → i < s.par.ibufCap → returns (ibufCell s i).toNat) ∧
    (∀ i, a = .readIbuf i → s.par.ibufCap ≤ i → returns 0) ∧
    (∀ i, a = .readObuf i → i < s.par.obufCap → returns (obufCell s i).toNat) ∧
    (∀ i, a = .readObuf i → s.par.obufCap ≤ i → returns 0) ∧
    (∀ j, a = .readPbuf j → j < s.par.pbufCap → returns (pbufCell s j).toNat) ∧
    (∀ j, a = .readPbuf j → s.par.pbufCap ≤ j → returns 0)

/-- R50, R52, R54, R55: a host write to IBUF or PBUF below the capacity sets that one cell and nothing else; at or beyond the
capacity it is ignored. (The queue `pending` and `reply` are the model's own, logs 1 and 2.) -/
def Obligations.HostBufferWritesReachOneCell : Prop :=
  (∀ (s : State) (i : Nat) (b : Bool) (rest : List HostAccess), s.pending = .writeIbuf i b :: rest →
    ∃ t, step s = .next t ∧ (∀ k, ibufCell t k = if k = i ∧ i < s.par.ibufCap then b else ibufCell s k) ∧
      keepsRegs [] s t ∧ keepsObuf s t ∧ keepsPbuf s t ∧ t.par = s.par ∧ t.resetEpoch = s.resetEpoch ∧
      t.pending = rest ∧ t.reply = none) ∧
  (∀ (s : State) (j : Nat) (x : Byte) (rest : List HostAccess), s.pending = .writePbuf j x :: rest →
    ∃ t, step s = .next t ∧ (∀ k, pbufCell t k = if k = j ∧ j < s.par.pbufCap then x else pbufCell s k) ∧
      keepsRegs [] s t ∧ keepsIbuf s t ∧ keepsObuf s t ∧ t.par = s.par ∧ t.resetEpoch = s.resetEpoch ∧
      t.pending = rest ∧ t.reply = none)

/-- R200: after HostReset(), from every state, and in the power-on state, every register has its reset value, no buffer cell holds
a written value (so each has its unspecified one), and the ROMs have their contents (those of the run's LC_TABLE).
The model's own: that an unspecified cell is one no written value is listed for, which then reads as a free value (DESIGN CHOICE, log 5), and that
the parameters and the host's own queue outlive the reset (DEDUCED, log 16). -/
def Obligations.ResetGivesTheResetState : Prop :=
  let isReset (t : State) : Prop :=
    t.cmd = 0x00000000#32 ∧ t.status = 0x0000#16 ∧ t.res = 0x00000000#32 ∧ t.src = 0#64 ∧ t.tgt = 0#64 ∧
      t.ibufLen = 0#32 ∧ t.obufLen = 0#32 ∧ t.pbufLen = 0#32 ∧ t.crcAcc = 0xFFFFFFFF#32 ∧
      t.nrz = 0x00000003#32 ∧ nrzLvl t.nrz = true ∧ nrzPrev t.nrz = true ∧
      t.pm = 0x00000000#32 ∧ pmCnt t.pm = 0#7 ∧ pmSt t.pm = pmMatching ∧
      (∀ i, Memory.get? t.ibuf i = none) ∧ (∀ i, Memory.get? t.obuf i = none) ∧ (∀ j, Memory.get? t.pbuf j = none)
  isReset State.reset ∧
  ∀ (s : State) (rest : List HostAccess), s.pending = .reset :: rest →
    ∃ t, step s = .next t ∧ isReset t ∧ t.par = s.par ∧ t.pending = rest

/-! ### Line code -/

/-- R101: for every injective table LC_CON inverts LC_EXP, marks every other codeword invalid with group 0, and has exactly
sixteen valid entries. -/
def Obligations.LineCodeRomsAreInverse : Prop :=
  ∀ table : Vector Codeword 16, injectiveTable table →
    (∀ g : Group, lcCon table (lcExp table g) = ⟨true, g⟩) ∧
    (∀ c : Codeword, (∀ g : Group, lcExp table g ≠ c) → lcCon table c = ⟨false, 0#4⟩) ∧
    ((List.range 32).countP fun c => (lcCon table (BitVec.ofNat 5 c)).valid) = 16

/-- R102: the default table's sixteen codewords, in the order of the groups, and its sixteen invalid codewords. The table is general
knowledge (log 3). -/
def Obligations.DefaultTableContents : Prop :=
  ((List.range 16).map fun g => (lcExp State.reset.par.lcTable (BitVec.ofNat 4 g)).toNat) =
    [30, 9, 20, 21, 10, 11, 14, 15, 18, 19, 22, 23, 26, 27, 28, 29] ∧
  ((List.range 32).filter fun c => !(lcCon State.reset.par.lcTable (BitVec.ofNat 5 c)).valid) =
    [0, 1, 2, 3, 4, 5, 6, 7, 8, 12, 13, 16, 17, 24, 25, 31]

/-- R106: LC_EXP4. -/
def Obligations.LcExp4GivesTheCodeword : Prop :=
  encodedAs 0x01 16 (fun v => .lcExp4 (BitVec.ofNat 4 v)) ∧
  ∀ (g : Group) (s : State), exec (.lcExp4 g) s =
    .next { s with res := (lcExp s.par.lcTable g).setWidth 32, status := 0x0001#16 }

/-- R107: LC_CON5, on a codeword in the image of LC_TABLE and on one outside it. -/
def Obligations.LcCon5GivesTheGroupOrFails : Prop :=
  encodedAs 0x02 32 (fun v => .lcCon5 (BitVec.ofNat 5 v)) ∧
  (∀ (c : Codeword) (g : Group) (s : State), injectiveTable s.par.lcTable → lcExp s.par.lcTable g = c →
    exec (.lcCon5 c) s = .next { s with res := g.setWidth 32, status := 0x0001#16 }) ∧
  (∀ (c : Codeword) (s : State), (∀ g, lcExp s.par.lcTable g ≠ c) →
    exec (.lcCon5 c) s = .next { s with status := 0x0008#16 })

/-- R108: LC_EXPAND: its two failures, and otherwise every 4 bits of IBUF_SEQ give 5 bits of OBUF_SEQ. -/
def Obligations.LcExpandExpandsOrFails : Prop :=
  encodedAs 0x03 1 (fun _ => .lcExpand) ∧
  ∀ s : State,
    (s.ibufLen.toNat % 4 ≠ 0 → exec .lcExpand s = .next { s with status := 0x0006#16 }) ∧
    (s.ibufLen.toNat % 4 = 0 → s.par.obufCap < 5 * s.ibufLen.toNat / 4 →
      exec .lcExpand s = .next { s with status := 0x0014#16 }) ∧
    (s.par.ok → s.ibufLen.toNat % 4 = 0 → 5 * s.ibufLen.toNat / 4 ≤ s.par.obufCap →
      ∃ t out, exec .lcExpand s = .next t ∧ emitted s t out ∧ out.length = 5 * s.ibufLen.toNat / 4 ∧
        ∀ j < s.ibufLen.toNat / 4, slice out (5 * j) (5 * j + 5) =
          seq5 (lcExp s.par.lcTable (BitVec.ofNat 4 (bitsToUInt (slice (ibufSeq s) (4 * j) (4 * j + 4))))))

/-- R109: LC_CONTRACT: its three failures in their order, and otherwise every 5 bits of IBUF_SEQ give 4 bits of OBUF_SEQ. -/
def Obligations.LcContractContractsOrFails : Prop :=
  encodedAs 0x04 1 (fun _ => .lcContract) ∧
  ∀ s : State,
    let entry (j : Nat) : ConEntry :=
      lcCon s.par.lcTable (BitVec.ofNat 5 (bitsToUInt (slice (ibufSeq s) (5 * j) (5 * j + 5))))
    let allValid : Prop := ∀ j < s.ibufLen.toNat / 5, (entry j).valid = true
    (s.ibufLen.toNat % 5 ≠ 0 → exec .lcContract s = .next { s with status := 0x0006#16 }) ∧
    (s.ibufLen.toNat % 5 = 0 → ¬ allValid → exec .lcContract s = .next { s with status := 0x0008#16 }) ∧
    (s.ibufLen.toNat % 5 = 0 → allValid → s.par.obufCap < 4 * s.ibufLen.toNat / 5 →
      exec .lcContract s = .next { s with status := 0x0014#16 }) ∧
    (s.ibufLen.toNat % 5 = 0 → allValid → 4 * s.ibufLen.toNat / 5 ≤ s.par.obufCap →
      ∃ t out, exec .lcContract s = .next t ∧ emitted s t out ∧ out.length = 4 * s.ibufLen.toNat / 5 ∧
        ∀ j < s.ibufLen.toNat / 5, slice out (4 * j) (4 * j + 4) = seq4 (entry j).group)

/-! ### NRZI -/

/-- R112, R113: the two coders by their formulas: both keep the length, each encoder output is the previous output (the seed
at position 0) flipped by the input bit, and each decoder output says whether the input differs from the previous input (the
seed at position 0). -/
def Obligations.NrziCodersFollowTheirFormulas : Prop :=
  ∀ (b : BitSeq) (seed : Bool),
    (toDifferential b seed).length = b.length ∧ (fromDifferential b seed).length = b.length ∧
    (∀ x, b[0]? = some x → (toDifferential b seed)[0]? = some (seed ^^ x) ∧
      (fromDifferential b seed)[0]? = some (x != seed)) ∧
    (∀ i x before level, b[i + 1]? = some x → b[i]? = some before → (toDifferential b seed)[i]? = some level →
      (toDifferential b seed)[i + 1]? = some (level ^^ x) ∧
      (fromDifferential b seed)[i + 1]? = some (x != before))

/-- R114: with the same seed the two coders invert each other, in both orders. -/
def Obligations.NrziCodersInvertEachOther : Prop :=
  ∀ (b : BitSeq) (seed : Bool),
    fromDifferential (toDifferential b seed) seed = b ∧ toDifferential (fromDifferential b seed) seed = b

/-- R115: NRZI_SEED. -/
def Obligations.NrziSeedLoadsBothPipelines : Prop :=
  encodedAs 0x08 2 (fun v => .nrziSeed (v == 1)) ∧
  ∀ (seed : Bool) (s : State), exec (.nrziSeed seed) s =
    .next { s with nrz := if seed then 0x00000003#32 else 0x00000000#32, status := 0x0001#16 }

/-- R116: NRZI_EBIT: one step, and the stream: after NRZI_SEED and the bits `b[0..i]` RES and NRZ_LVL hold
`toDifferential(b, S)[i]`. -/
def Obligations.NrziEbitIsOneEncoderStep : Prop :=
  encodedAs 0x09 2 (fun v => .nrziEbit (v == 1)) ∧
  (∀ (b : Bool) (s : State), ∃ t, exec (.nrziEbit b) s = .next t ∧
    nrzLvl t.nrz = (nrzLvl s.nrz ^^ b) ∧ nrzPrev t.nrz = nrzPrev s.nrz ∧ nrzLegal t.nrz ∧
    t.res = (if (nrzLvl s.nrz ^^ b) then 1#32 else 0#32) ∧ t.status = 0x0001#16 ∧ changesOnlyRegs [1, 2, 9] s t) ∧
  (∀ (b : BitSeq) (seed : Bool) (s : State),
    (∃ t, execAll (.nrziSeed seed :: b.map .nrziEbit) s = .next t ∧
      nrzLvl t.nrz = (toDifferential b seed).getLast?.getD seed) ∧
    (∀ i out, (toDifferential b seed)[i]? = some out →
      ∃ t, execAll (.nrziSeed seed :: (b.take (i + 1)).map .nrziEbit) s = .next t ∧
        t.res = (if out then 1#32 else 0#32)))

/-- R117: NRZI_DBIT: one step, and the stream: after NRZI_SEED and the bits `e[0..i]` RES holds
`fromDifferential(e, S)[i]`. -/
def Obligations.NrziDbitIsOneDecoderStep : Prop :=
  encodedAs 0x0A 2 (fun v => .nrziDbit (v == 1)) ∧
  (∀ (b : Bool) (s : State), ∃ t, exec (.nrziDbit b) s = .next t ∧
    nrzPrev t.nrz = b ∧ nrzLvl t.nrz = nrzLvl s.nrz ∧ nrzLegal t.nrz ∧
    t.res = (if (b ^^ nrzPrev s.nrz) then 1#32 else 0#32) ∧ t.status = 0x0001#16 ∧ changesOnlyRegs [1, 2, 9] s t) ∧
  (∀ (e : BitSeq) (seed : Bool) (s : State) (i : Nat) (out : Bool), (fromDifferential e seed)[i]? = some out →
    ∃ t, execAll (.nrziSeed seed :: (e.take (i + 1)).map .nrziDbit) s = .next t ∧
      t.res = (if out then 1#32 else 0#32))

/-- R118: NRZI_ENC. -/
def Obligations.NrziEncEncodesOrFails : Prop :=
  encodedAs 0x0B 2 (fun v => .nrziEnc (v == 1)) ∧
  ∀ (seed : Bool) (s : State),
    (s.par.obufCap < s.ibufLen.toNat → exec (.nrziEnc seed) s = .next { s with status := 0x0014#16 }) ∧
    (s.ibufLen.toNat ≤ s.par.obufCap → ∃ t, exec (.nrziEnc seed) s = .next t ∧
      emitted s t (toDifferential (ibufSeq s) seed))

/-- R119: NRZI_DEC, with the reach of a single flipped input bit. -/
def Obligations.NrziDecDecodesOrFails : Prop :=
  encodedAs 0x0C 2 (fun v => .nrziDec (v == 1)) ∧
  (∀ (seed : Bool) (s : State),
    (s.par.obufCap < s.ibufLen.toNat → exec (.nrziDec seed) s = .next { s with status := 0x0014#16 }) ∧
    (s.ibufLen.toNat ≤ s.par.obufCap → ∃ t, exec (.nrziDec seed) s = .next t ∧
      emitted s t (fromDifferential (ibufSeq s) seed))) ∧
  (∀ (e : BitSeq) (seed : Bool) (k : Nat), k < e.length →
    fromDifferential (e.modify k (!·)) seed = ((fromDifferential e seed).modify k (!·)).modify (k + 1) (!·))

/-! ### Preamble -/

/-- R131: the preamble's 64 bits. -/
def Obligations.PreambleBits : Prop :=
  preRom = (List.replicate 7 [true, false, true, false, true, false, true, false]).flatten ++
    [true, false, true, false, true, false, true, true] ∧
  preRom.length = 64 ∧ bitsToUInt preRom = 0xAAAAAAAAAAAAAAAB ∧
  (∀ i < 63, preRom[i]? = some (i % 2 == 0)) ∧ preRom[63]? = some true

/-- R132: the matcher is exact, at offset 0, blind to what follows position 63, and false after any flip inside the first
64 bits. -/
def Obligations.PreambleMatchIsExact : Prop :=
  (∀ x : BitSeq, matchPreamble x = true ↔ 64 ≤ x.length ∧ ∀ i < 64, x[i]? = preRom[i]?) ∧
  (∀ x y : BitSeq, x.length = 64 → matchPreamble (x ++ y) = matchPreamble x) ∧
  (∀ x : BitSeq, x.length < 64 → matchPreamble x = false) ∧
  (∀ (x : BitSeq) (k : Nat), matchPreamble x = true → k < 64 → matchPreamble (x.modify k (!·)) = false)

/-- R133: PRE_GEN. -/
def Obligations.PreGenEmitsThePreamble : Prop :=
  encodedAs 0x10 1 (fun _ => .preGen) ∧
  ∀ s : State, s.par.ok → ∃ t, exec .preGen s = .next t ∧ emitted s t preRom ∧ t.obufLen = 64#32

/-- R134: PM_RESET. -/
def Obligations.PmResetStartsTheMatcher : Prop :=
  encodedAs 0x12 1 (fun _ => .pmReset) ∧
  ∀ s : State, exec .pmReset s = .next { s with pm := 0x00000000#32, status := 0x0001#16 } ∧
    pmCnt 0x00000000#32 = 0#7 ∧ pmSt 0x00000000#32 = pmMatching

/-- R135: PM_BIT, in every state whose PM is legal (R36). -/
def Obligations.PmBitIsOneMatcherStep : Prop :=
  encodedAs 0x13 2 (fun v => .pmBit (v == 1)) ∧
  ∀ (b : Bool) (s : State), pmLegal s.pm → ∃ t, exec (.pmBit b) s = .next t ∧
    (pmSt s.pm = pmMatching → preRom[(pmCnt s.pm).toNat]? = some b →
      (pmCnt t.pm).toNat = (pmCnt s.pm).toNat + 1 ∧
        pmSt t.pm = if (pmCnt s.pm).toNat + 1 = 64 then pmMatched else pmMatching) ∧
    (pmSt s.pm = pmMatching → preRom[(pmCnt s.pm).toNat]? ≠ some b →
      pmCnt t.pm = pmCnt s.pm ∧ pmSt t.pm = pmFailed) ∧
    (pmSt s.pm ≠ pmMatching → t.pm = s.pm) ∧
    t.res = (pmSt t.pm).setWidth 32 ∧ t.status = 0x0001#16 ∧ pmLegal t.pm ∧ changesOnlyRegs [1, 2, 10] s t

/-- R136: PRE_MATCH. -/
def Obligations.PreMatchTestsTheInput : Prop :=
  encodedAs 0x11 1 (fun _ => .preMatch) ∧
  ∀ s : State,
    (s.ibufLen.toNat < 64 → exec .preMatch s = .next { s with res := 0#32, status := 0x0001#16 }) ∧
    exec .preMatch s =
      .next { s with res := if matchPreamble (ibufSeq s) then 1#32 else 0#32, status := 0x0001#16 }

/-- R137: the streaming matcher and the batch matcher agree, on every bit sequence from every state. -/
def Obligations.StreamingMatcherAgreesWithBatch : Prop :=
  ∀ (bits : BitSeq) (s : State), ∃ t, execAll (.pmReset :: bits.map .pmBit) s = .next t ∧
    (pmSt t.pm = pmMatched ↔ matchPreamble bits = true) ∧
    (pmSt t.pm = pmFailed ↔ ∃ i, i < min bits.length 64 ∧ bits[i]? ≠ preRom[i]?)

/-! ### CRC -/

/-- R142, R143: the check value of the common variant and the CRC of no bytes. R142's parameters are general knowledge (log 7). -/
def Obligations.CrcCheckValue : Prop :=
  crc32 [0x31#8, 0x32#8, 0x33#8, 0x34#8, 0x35#8, 0x36#8, 0x37#8, 0x38#8, 0x39#8] = 0xCBF43926#32 ∧
  crc32 [] = 0x00000000#32

/-- R146: CRC_INIT. -/
def Obligations.CrcInitStartsTheStream : Prop :=
  encodedAs 0x18 1 (fun _ => .crcInit) ∧
  ∀ s : State, exec .crcInit s = .next { s with crcAcc := 0xFFFFFFFF#32, status := 0x0001#16 }

/-- R147: CRC_BYTE: the byte is xored into the low bits of CRC_ACC, then eight times the register is shifted right and, if the bit
shifted out is 1, xored with the polynomial. The byte's bit order is general knowledge (R142, log 7). -/
def Obligations.CrcByteFeedsOneByte : Prop :=
  encodedAs 0x19 256 (fun v => .crcByte (BitVec.ofNat 8 v)) ∧
  ∀ (y : Byte) (s : State),
    let shift (a : BitVec 32) : BitVec 32 := if a.getLsbD 0 then (a >>> 1) ^^^ 0xEDB88320#32 else a >>> 1
    exec (.crcByte y) s = .next { s with
      crcAcc := shift (shift (shift (shift (shift (shift (shift (shift (s.crcAcc ^^^ y.setWidth 32))))))))
      status := 0x0001#16 }

/-- R148: CRC_FINAL: RES is the inverted register, which stays; and CRC_INIT, CRC_BYTE over every byte, CRC_FINAL leave the batch
CRC in RES. -/
def Obligations.CrcFinalReadsTheStreamOut : Prop :=
  encodedAs 0x1A 1 (fun _ => .crcFinal) ∧
  (∀ s : State, exec .crcFinal s = .next { s with res := s.crcAcc ^^^ 0xFFFFFFFF#32, status := 0x0001#16 }) ∧
  (∀ (p : List Byte) (s : State), ∃ t,
    execAll (.crcInit :: (p.map .crcByte ++ [.crcFinal])) s = .next t ∧ t.res = crc32 p) ∧
  (∀ s : State, ∃ t, execAll [.crcInit, .crcFinal] s = .next t ∧ t.res = 0#32)

/-- R149: CRC32. -/
def Obligations.Crc32OfThePayloadBuffer : Prop :=
  encodedAs 0x1B 1 (fun _ => .crc32) ∧
  ∀ s : State,
    exec .crc32 s = .next { s with res := crc32 (pbufSeq s), status := 0x0001#16 } ∧
    (s.pbufLen = 0#32 → exec .crc32 s = .next { s with res := 0#32, status := 0x0001#16 })

/-! ### Frames -/

/-- R87: the raw frame's fields at their positions, each most significant bit first, target first, the CRC over everything before
it. -/
def Obligations.RawFrameLayout : Prop :=
  ∀ (src tgt : Nat) (p : List Byte), src < 2 ^ 48 → tgt < 2 ^ 48 → p.length ≤ 65535 →
    ∃ raw, marshal src tgt p = .ok raw ∧ raw.length = 144 + 8 * p.length ∧
      intToBits tgt 6 = some (slice raw 0 48) ∧ intToBits src 6 = some (slice raw 48 96) ∧
      intToBits p.length 2 = some (slice raw 96 112) ∧
      bitsOfBytes p = slice raw 112 (112 + 8 * p.length) ∧
      intToBits (crc32 (bytesOf (slice raw 0 (112 + 8 * p.length)))).toNat 4 =
        some (slice raw (112 + 8 * p.length) (144 + 8 * p.length))

/-- R88, R89, R90: the line-coded, the differentially-coded and the transmittable frame. -/
def Obligations.TransmittableFrameLayout : Prop :=
  ∀ (table : Vector Codeword 16) (src tgt : Nat) (p : List Byte), src < 2 ^ 48 → tgt < 2 ^ 48 → p.length ≤ 65535 →
    ∃ raw lc x, marshal src tgt p = .ok raw ∧ changeCoding raw (expand table) 4 = .ok lc ∧
      lc.length = 180 + 10 * p.length ∧
      (∀ j < raw.length / 4, slice lc (5 * j) (5 * j + 5) =
        seq5 (lcExp table (BitVec.ofNat 4 (bitsToUInt (slice raw (4 * j) (4 * j + 4)))))) ∧
      (toDifferential lc true).length = lc.length ∧
      encodeFrame table src tgt p = .ok x ∧ x.length = 244 + 10 * p.length ∧
      slice x 0 64 = preRom ∧ slice x 64 (244 + 10 * p.length) = toDifferential lc true

/-- R154: FRAME_MARSHAL: its three failures in their order, and otherwise the raw frame. -/
def Obligations.FrameMarshalBuildsTheRawFrameOrFails : Prop :=
  encodedAs 0x20 1 (fun _ => .frameMarshal) ∧
  ∀ s : State,
    let addressesFit : Prop := s.tgt.toNat < 2 ^ 48 ∧ s.src.toNat < 2 ^ 48
    (¬ addressesFit → exec .frameMarshal s = .next { s with status := 0x0010#16 }) ∧
    (addressesFit → 65535 < s.pbufLen.toNat → exec .frameMarshal s = .next { s with status := 0x0012#16 }) ∧
    (addressesFit → s.pbufLen.toNat ≤ 65535 → s.par.obufCap < 144 + 8 * s.pbufLen.toNat →
      exec .frameMarshal s = .next { s with status := 0x0014#16 }) ∧
    (addressesFit → s.pbufLen.toNat ≤ 65535 → 144 + 8 * s.pbufLen.toNat ≤ s.par.obufCap →
      ∃ t raw, marshal s.src.toNat s.tgt.toNat (pbufSeq s) = .ok raw ∧ raw.length = 144 + 8 * s.pbufLen.toNat ∧
        exec .frameMarshal s = .next t ∧ emitted s t raw)

/-- R155: FRAME_SPLIT: its failures in their order, and otherwise the fields of the raw frame in IBUF_SEQ, at the positions of R152
(the CRC the last 32 bits, 90_conflicts.md C1). -/
def Obligations.FrameSplitDeliversTheFieldsOrFails : Prop :=
  encodedAs 0x21 1 (fun _ => .frameSplit) ∧
  ∀ s : State,
    let r := ibufSeq s
    let n := s.ibufLen.toNat
    let payloadLen := (n - 144) / 8
    let whole : Prop := 144 ≤ n ∧ n % 8 = 0
    let crcHolds : Prop := bitsToUInt (slice r (n - 32) n) = (crc32 (bytesOf (slice r 0 (n - 32)))).toNat
    let lengthHolds : Prop := bitsToUInt (slice r 96 112) = payloadLen
    (n < 144 → exec .frameSplit s = .next { s with status := 0x000A#16 }) ∧
    (144 ≤ n → n % 8 ≠ 0 → exec .frameSplit s = .next { s with status := 0x000E#16 }) ∧
    (whole → ¬ crcHolds → exec .frameSplit s = .next { s with status := 0x000C#16 }) ∧
    (whole → crcHolds → ¬ lengthHolds → exec .frameSplit s = .next { s with status := 0x000E#16 }) ∧
    (whole → crcHolds → lengthHolds → s.par.pbufCap < payloadLen →
      exec .frameSplit s = .next { s with status := 0x0014#16 }) ∧
    (whole → crcHolds → lengthHolds → payloadLen ≤ s.par.pbufCap → ∃ t payload,
      exec .frameSplit s = .next t ∧
      delivered s t (bitsToUInt (slice r 48 96)) (bitsToUInt (slice r 0 48)) payload ∧
      payload.length = payloadLen ∧
      ∀ j < payloadLen, payload[j]? = some (BitVec.ofNat 8 (bitsToUInt (slice r (112 + 8 * j) (120 + 8 * j)))))

/-- R156: FRAME_ENC: its three failures in their order, and otherwise the transmittable frame. -/
def Obligations.FrameEncBuildsTheTransmittableFrameOrFails : Prop :=
  encodedAs 0x22 1 (fun _ => .frameEnc) ∧
  ∀ s : State,
    let addressesFit : Prop := s.tgt.toNat < 2 ^ 48 ∧ s.src.toNat < 2 ^ 48
    (¬ addressesFit → exec .frameEnc s = .next { s with status := 0x0010#16 }) ∧
    (addressesFit → 65535 < s.pbufLen.toNat → exec .frameEnc s = .next { s with status := 0x0012#16 }) ∧
    (addressesFit → s.pbufLen.toNat ≤ 65535 → s.par.obufCap < 244 + 10 * s.pbufLen.toNat →
      exec .frameEnc s = .next { s with status := 0x0014#16 }) ∧
    (addressesFit → s.pbufLen.toNat ≤ 65535 → 244 + 10 * s.pbufLen.toNat ≤ s.par.obufCap →
      ∃ t x, encodeFrame s.par.lcTable s.src.toNat s.tgt.toNat (pbufSeq s) = .ok x ∧
        x.length = 244 + 10 * s.pbufLen.toNat ∧ exec .frameEnc s = .next t ∧ emitted s t x)

/-- R157: FRAME_DEC: the checks of R153 in their order, each with its STATUS, and otherwise the decoded frame. -/
def Obligations.FrameDecDeliversTheFrameOrFails : Prop :=
  encodedAs 0x23 1 (fun _ => .frameDec) ∧
  ∀ s : State,
    let x := ibufSeq s
    let n := s.ibufLen.toNat
    let d := fromDifferential (x.drop 64) true
    let entry (j : Nat) : ConEntry := lcCon s.par.lcTable (BitVec.ofNat 5 (bitsToUInt (slice d (5 * j) (5 * j + 5))))
    let allValid : Prop := ∀ j < (n - 64) / 5, (entry j).valid = true
    (n < 144 → exec .frameDec s = .next { s with status := 0x0002#16 }) ∧
    (144 ≤ n → matchPreamble x = false → exec .frameDec s = .next { s with status := 0x0004#16 }) ∧
    (144 ≤ n → matchPreamble x = true → (n - 64) % 5 ≠ 0 → exec .frameDec s = .next { s with status := 0x0006#16 }) ∧
    (144 ≤ n → matchPreamble x = true → (n - 64) % 5 = 0 → ¬ allValid →
      exec .frameDec s = .next { s with status := 0x0008#16 }) ∧
    (144 ≤ n → matchPreamble x = true → (n - 64) % 5 = 0 → allValid →
      ∃ raw : BitSeq, raw.length = 4 * ((n - 64) / 5) ∧
        (∀ j < (n - 64) / 5, slice raw (4 * j) (4 * j + 4) = seq4 (entry j).group) ∧
        (splitFrame raw = .error .shortFrame → exec .frameDec s = .next { s with status := 0x000A#16 }) ∧
        (splitFrame raw = .error .crcMismatch → exec .frameDec s = .next { s with status := 0x000C#16 }) ∧
        (splitFrame raw = .error .lengthMismatch → exec .frameDec s = .next { s with status := 0x000E#16 }) ∧
        (∀ f, splitFrame raw = .ok f → s.par.pbufCap < f.payload.length →
          exec .frameDec s = .next { s with status := 0x0014#16 }) ∧
        (∀ f, splitFrame raw = .ok f → f.payload.length ≤ s.par.pbufCap → ∃ t,
          exec .frameDec s = .next t ∧ delivered s t f.src f.tgt f.payload) ∧
        ((∃ f, splitFrame raw = .ok f) ∨ splitFrame raw = .error .shortFrame ∨
          splitFrame raw = .error .crcMismatch ∨ splitFrame raw = .error .lengthMismatch))

/-- R158: decoding an encoded frame gives its fields back, for every injective table; and FRAME_ENC, XFER, FRAME_DEC leave SRC, TGT
and PBUF_SEQ as they were and STATUS = 0x0001. -/
def Obligations.RoundTrip : Prop :=
  (∀ (table : Vector Codeword 16) (src tgt : Nat) (p : List Byte), injectiveTable table →
    src < 2 ^ 48 → tgt < 2 ^ 48 → p.length ≤ 65535 →
      ∃ x, encodeFrame table src tgt p = .ok x ∧ decodeFrame table x = .ok ⟨src, tgt, p⟩) ∧
  (∀ s : State, s.par.ok → 655594 ≤ s.par.ibufCap → 655594 ≤ s.par.obufCap → 65535 ≤ s.par.pbufCap →
    s.src.toNat < 2 ^ 48 → s.tgt.toNat < 2 ^ 48 → s.pbufLen.toNat ≤ 65535 →
      ∃ t, execAll [.frameEnc, .xfer, .frameDec] s = .next t ∧
        t.src = s.src ∧ t.tgt = s.tgt ∧ pbufSeq t = pbufSeq s ∧ t.status = 0x0001#16)

/-- R159: where the addresses and the payload are legal and the whole transmittable frame fits OBUF and IBUF, FRAME_ENC's output is PRE followed
by what FRAME_MARSHAL, XFER, LC_EXPAND, XFER, NRZI_ENC 1 compute; and for an input that passes steps 1 and 2 and fits both buffers, NRZI_DEC 1 on
the rest, XFER, LC_CONTRACT, XFER, FRAME_SPLIT end as FRAME_DEC does, failure for failure. -/
def Obligations.FrameCommandsEqualTheStepByStepPath : Prop :=
  (∀ s : State, s.par.ok → 244 + 10 * s.pbufLen.toNat ≤ s.par.obufCap → 244 + 10 * s.pbufLen.toNat ≤ s.par.ibufCap →
    s.src.toNat < 2 ^ 48 → s.tgt.toNat < 2 ^ 48 → s.pbufLen.toNat ≤ 65535 →
      ∃ t u, exec .frameEnc s = .next t ∧
        execAll [.frameMarshal, .xfer, .lcExpand, .xfer, .nrziEnc true] s = .next u ∧
        t.status = 0x0001#16 ∧ u.status = 0x0001#16 ∧ obufSeq t = preRom ++ obufSeq u) ∧
  (∀ s s' : State, s.par.ok → s'.par = s.par → 144 ≤ s.ibufLen.toNat → matchPreamble (ibufSeq s) = true →
    ibufSeq s' = (ibufSeq s).drop 64 → s.ibufLen.toNat ≤ s.par.obufCap → s.ibufLen.toNat ≤ s.par.ibufCap →
      ∃ t u, exec .frameDec s = .next t ∧
        execChecked [.nrziDec true, .xfer, .lcContract, .xfer, .frameSplit] s' = .next u ∧
        t.status = u.status ∧
        (t.status = 0x0001#16 → t.src = u.src ∧ t.tgt = u.tgt ∧ pbufSeq t = pbufSeq u))

/-- R160: the failure-step properties. A valid raw frame with any one bit flipped fails the CRC check, split as it is or re-encoded and
decoded; a frame whose declared length is not its payload's and whose CRC is right fails with LENGTH_MISMATCH; the preamble alone fails with
SHORT_INPUT; a preamble with one bit flipped, followed by anything, fails with NO_PREAMBLE from 144 bits on and with SHORT_INPUT below. -/
def Obligations.FailureStepProperties : Prop :=
  (∀ (r : BitSeq) (f : Frame) (k : Nat), splitFrame r = .ok f → k < r.length →
    splitFrame (r.modify k (!·)) = .error .crcMismatch) ∧
  (∀ (table : Vector Codeword 16) (r lc : BitSeq) (f : Frame) (k : Nat), injectiveTable table → splitFrame r = .ok f →
    k < r.length → changeCoding (r.modify k (!·)) (expand table) 4 = .ok lc →
      decodeFrame table (preRom ++ toDifferential lc true) = .error .crcMismatch) ∧
  (∀ (src tgt declared : Nat) (p : List Byte), src < 2 ^ 48 → tgt < 2 ^ 48 → declared < 2 ^ 16 → declared ≠ p.length →
    let head := b48 tgt ++ b48 src ++ b16 declared ++ bitsOfBytes p
    splitFrame (head ++ b32 (crc32 (bytesOf head))) = .error .lengthMismatch) ∧
  (∀ table : Vector Codeword 16, decodeFrame table preRom = .error .shortInput) ∧
  (∀ (table : Vector Codeword 16) (k : Nat) (rest : BitSeq), k < 64 →
    (144 ≤ 64 + rest.length → decodeFrame table (preRom.modify k (!·) ++ rest) = .error .noPreamble) ∧
    (64 + rest.length < 144 → decodeFrame table (preRom.modify k (!·) ++ rest) = .error .shortInput))

/-! ### Control -/

/-- R170: NOP. -/
def Obligations.NopChangesOnlyStatus : Prop :=
  encodedAs 0x00 1 (fun _ => .nop) ∧ ∀ s : State, exec .nop s = .next { s with status := 0x0001#16 }

/-- R171: XFER: its failure, and otherwise the copy of OBUF_SEQ into IBUF; IBUF cells at and beyond OBUF_LEN keep their values. -/
def Obligations.XferCopiesTheOutputOrFails : Prop :=
  encodedAs 0x28 1 (fun _ => .xfer) ∧
  ∀ s : State,
    (s.par.ibufCap < s.obufLen.toNat → exec .xfer s = .next { s with status := 0x0014#16 }) ∧
    (s.obufLen.toNat ≤ s.par.ibufCap → ∃ t, exec .xfer s = .next t ∧
      (∀ k, ibufCell t k = if k < s.obufLen.toNat then obufCell s k else ibufCell s k) ∧
      t.ibufLen = s.obufLen ∧ t.status = 0x0001#16 ∧
      keepsRegs [1, 5] s t ∧ keepsObuf s t ∧ keepsPbuf s t ∧ keepsOwn s t)

/-! ### Rules about the whole machine -/

/-- R185: a command that fails changes STATUS alone, to `REASON << 1` with REASON in 1 to 11. -/
def Obligations.FailureChangesOnlyStatus : Prop :=
  ∀ (i : Instr) (s t : State), exec i s = .next t → t.status ≠ 0x0001#16 →
    ∃ reason, 1 ≤ reason ∧ reason ≤ 11 ∧ t = { s with status := BitVec.ofNat 16 (reason <<< 1) }

/-- R40: no command reads STATUS. R26: none writes CMD. R99 has a command decode CMD for its operand, which `exec` is given decoded; that
beyond this decoded operand no command reads CMD is the model's inference (DEDUCED, log 9). So whatever the two registers held, the command
ends the same, and CMD stays. -/
def Obligations.CommandsReadNeitherStatusNorCmd : Prop :=
  ∀ (i : Instr) (s t : State) (v : BitVec 16) (w : BitVec 32), exec i s = .next t →
    t.cmd = s.cmd ∧ exec i { s with status := v, cmd := w } = .next { t with cmd := w }

/-- R43, R204: a batch command neither reads nor writes the streaming unit state. -/
def Obligations.BatchCommandsIgnoreTheStreamingState : Prop :=
  ∀ (i : Instr) (s t : State) (acc nrz pm : BitVec 32), isBatch i = true → exec i s = .next t →
    t.crcAcc = s.crcAcc ∧ t.nrz = s.nrz ∧ t.pm = s.pm ∧
      exec i { s with crcAcc := acc, nrz := nrz, pm := pm } = .next { t with crcAcc := acc, nrz := nrz, pm := pm }

/-- R26, R28 to R36, R41, R50 to R52: which commands write which register: a command after which a register differs is one of those its rule names;
none writes CMD, the parameters (the ROM LC_EXP) or the model's own fields. -/
def Obligations.RegistersAreWrittenOnlyByTheirCommands : Prop :=
  ∀ (i : Instr) (s t : State), exec i s = .next t →
    t.cmd = s.cmd ∧ keepsOwn s t ∧
    (t.res ≠ s.res → (∃ g, i = .lcExp4 g) ∨ (∃ c, i = .lcCon5 c) ∨ (∃ b, i = .nrziEbit b) ∨ (∃ b, i = .nrziDbit b) ∨
      (∃ b, i = .pmBit b) ∨ i = .preMatch ∨ i = .crcFinal ∨ i = .crc32) ∧
    (t.src ≠ s.src → i = .frameSplit ∨ i = .frameDec) ∧
    (t.tgt ≠ s.tgt → i = .frameSplit ∨ i = .frameDec) ∧
    (t.pbufLen ≠ s.pbufLen → i = .frameSplit ∨ i = .frameDec) ∧
    (¬ keepsPbuf s t → i = .frameSplit ∨ i = .frameDec) ∧
    (t.ibufLen ≠ s.ibufLen → i = .xfer) ∧
    (¬ keepsIbuf s t → i = .xfer) ∧
    (t.obufLen ≠ s.obufLen ∨ ¬ keepsObuf s t → i = .lcExpand ∨ i = .lcContract ∨ (∃ b, i = .nrziEnc b) ∨
      (∃ b, i = .nrziDec b) ∨ i = .preGen ∨ i = .frameMarshal ∨ i = .frameEnc) ∧
    (t.crcAcc ≠ s.crcAcc → i = .crcInit ∨ ∃ y, i = .crcByte y) ∧
    (t.nrz ≠ s.nrz → (∃ b, i = .nrziSeed b) ∨ (∃ b, i = .nrziEbit b) ∨ ∃ b, i = .nrziDbit b) ∧
    (t.pm ≠ s.pm → i = .pmReset ∨ ∃ b, i = .pmBit b)

/-- R50, R51, R52, R54: no command reads a buffer cell at or beyond the buffer's length register: whatever such a cell is made to hold, the
command ends with the same registers and the same cells, that one cell apart. -/
def Obligations.CellsBeyondTheLengthAreNeverRead : Prop :=
  ∀ (i : Instr) (s t : State) (k : Nat), exec i s = .next t →
    (∀ b : Bool, s.ibufLen.toNat ≤ k → ∃ u, exec i { s with ibuf := Memory.set s.ibuf k b } = .next u ∧
      keepsRegs [] t u ∧ (∀ j ≠ k, ibufCell u j = ibufCell t j) ∧ keepsObuf t u ∧ keepsPbuf t u ∧ keepsOwn t u) ∧
    (∀ b : Bool, s.obufLen.toNat ≤ k → ∃ u, exec i { s with obuf := Memory.set s.obuf k b } = .next u ∧
      keepsRegs [] t u ∧ keepsIbuf t u ∧ (∀ j ≠ k, obufCell u j = obufCell t j) ∧ keepsPbuf t u ∧ keepsOwn t u) ∧
    (∀ x : Byte, s.pbufLen.toNat ≤ k → ∃ u, exec i { s with pbuf := Memory.set s.pbuf k x } = .next u ∧
      keepsRegs [] t u ∧ keepsIbuf t u ∧ keepsObuf t u ∧ (∀ j ≠ k, pbufCell u j = pbufCell t j) ∧ keepsOwn t u)
end

