-- ==== Sys2Proof/Laws/Bits.lean ====
section
/-! SUPPORT. The laws of the conversions of Operands.lean (spec/30_encoding.md R81 to R86): lengths, values, inverses, chunks and
slices. -/

namespace Sys2Proof.Machine

/-! ### Integers as bits -/

@[simp] theorem msbBits_length (w v : Nat) : (msbBits w v).length = w := by simp [msbBits]

@[simp] theorem b48_length (v : Nat) : (b48 v).length = 48 := msbBits_length 48 v
@[simp] theorem b16_length (v : Nat) : (b16 v).length = 16 := msbBits_length 16 v
@[simp] theorem b32_length (v : BitVec 32) : (b32 v).length = 32 := msbBits_length 32 v.toNat
@[simp] theorem seq4_length (g : Group) : (seq4 g).length = 4 := msbBits_length 4 g.toNat
@[simp] theorem seq5_length (c : Codeword) : (seq5 c).length = 5 := msbBits_length 5 c.toNat
@[simp] theorem bitsOfByte_length (x : Byte) : (bitsOfByte x).length = 8 := msbBits_length 8 x.toNat

/-- The last bit is the least significant one. -/
theorem msbBits_succ (w v : Nat) : msbBits (w + 1) v = msbBits w (v / 2) ++ [v.testBit 0] := by
  simp only [msbBits, List.range_succ, List.map_append, List.map_cons, List.map_nil]
  congr 1
  · refine List.map_congr_left fun i hi => ?_
    have hi : i < w := List.mem_range.1 hi
    rw [show w + 1 - 1 - i = (w - 1 - i) + 1 by omega, Nat.testBit_succ]
  · simp

@[simp] theorem bitsToUInt_nil : bitsToUInt [] = 0 := rfl

theorem bitsToUInt_append_singleton (s : BitSeq) (b : Bool) : bitsToUInt (s ++ [b]) = 2 * bitsToUInt s + b.toNat := by
  simp [bitsToUInt]

/-- A sequence of `n` bits is a number below `2^n`. -/
theorem bitsToUInt_lt (s : BitSeq) : bitsToUInt s < 2 ^ s.length := by
  induction s using List.reverseRecOn with
  | nil => simp
  | append_singleton s b ih =>
    rw [bitsToUInt_append_singleton, List.length_append, List.length_singleton, Nat.pow_succ]
    cases b <;> simp <;> omega

/-- R82: reading back what was serialized. -/
theorem bitsToUInt_msbBits (w v : Nat) : bitsToUInt (msbBits w v) = v % 2 ^ w := by
  induction w generalizing v with
  | zero => simp [msbBits, Nat.mod_one]
  | succ w ih =>
    rw [msbBits_succ, bitsToUInt_append_singleton, ih, Nat.testBit_zero]
    have h2 : v % 2 ^ (w + 1) = 2 * (v / 2 % 2 ^ w) + v % 2 := by
      rw [Nat.pow_succ, Nat.mul_comm, Nat.mod_mul]
      omega
    rw [h2]
    rcases Nat.mod_two_eq_zero_or_one v with h | h <;> simp [h]

theorem bitsToUInt_msbBits_of_lt {w v : Nat} (h : v < 2 ^ w) : bitsToUInt (msbBits w v) = v := by
  rw [bitsToUInt_msbBits, Nat.mod_eq_of_lt h]

/-- Serializing back what was read. -/
theorem msbBits_bitsToUInt (s : BitSeq) : msbBits s.length (bitsToUInt s) = s := by
  induction s using List.reverseRecOn with
  | nil => rfl
  | append_singleton s b ih =>
    rw [List.length_append, List.length_singleton, msbBits_succ, bitsToUInt_append_singleton]
    have h1 : (2 * bitsToUInt s + b.toNat) / 2 = bitsToUInt s := by cases b <;> (simp; try omega)
    have h2 : (2 * bitsToUInt s + b.toNat).testBit 0 = b := by
      rw [Nat.testBit_zero]
      cases b <;> simp
    rw [h1, h2, ih]

/-- Sequences of one length with one value are equal. -/
theorem bitsToUInt_injective {s t : BitSeq} (hl : s.length = t.length) (h : bitsToUInt s = bitsToUInt t) : s = t := by
  rw [← msbBits_bitsToUInt s, ← msbBits_bitsToUInt t, hl, h]

/-- R81, R86 (log 17): in range, `intToBits` is the serialization the commands use. -/
theorem intToBits_of_lt {v n : Nat} (h : v < 2 ^ (8 * n)) : intToBits v n = some (msbBits (8 * n) v) := by
  simp [intToBits, Nat.not_le.2 h]

@[simp] theorem bitsToUInt_seq4 (g : Group) : bitsToUInt (seq4 g) = g.toNat := bitsToUInt_msbBits_of_lt g.isLt
@[simp] theorem bitsToUInt_seq5 (c : Codeword) : bitsToUInt (seq5 c) = c.toNat := bitsToUInt_msbBits_of_lt c.isLt
@[simp] theorem bitsToUInt_bitsOfByte (x : Byte) : bitsToUInt (bitsOfByte x) = x.toNat := bitsToUInt_msbBits_of_lt x.isLt
@[simp] theorem bitsToUInt_b32 (v : BitVec 32) : bitsToUInt (b32 v) = v.toNat := bitsToUInt_msbBits_of_lt v.isLt

theorem bitsToUInt_b48 {v : Nat} (h : v < 2 ^ 48) : bitsToUInt (b48 v) = v := bitsToUInt_msbBits_of_lt h
theorem bitsToUInt_b16 {v : Nat} (h : v < 2 ^ 16) : bitsToUInt (b16 v) = v := bitsToUInt_msbBits_of_lt h

/-- A 4-bit sequence is the sequence of the group it is identified with (R84). -/
theorem seq4_bitsToUInt {t : BitSeq} (h : t.length = 4) : seq4 (BitVec.ofNat 4 (bitsToUInt t)) = t := by
  have hlt := bitsToUInt_lt t
  rw [h] at hlt
  rw [seq4, BitVec.toNat_ofNat, Nat.mod_eq_of_lt hlt, ← h, msbBits_bitsToUInt]

/-- A 5-bit sequence is the sequence of the codeword it is identified with (R84). -/
theorem seq5_bitsToUInt {t : BitSeq} (h : t.length = 5) : seq5 (BitVec.ofNat 5 (bitsToUInt t)) = t := by
  have hlt := bitsToUInt_lt t
  rw [h] at hlt
  rw [seq5, BitVec.toNat_ofNat, Nat.mod_eq_of_lt hlt, ← h, msbBits_bitsToUInt]

/-- An 8-bit sequence is the sequence of the byte it packs (R59, R83). -/
theorem bitsOfByte_bitsToUInt {t : BitSeq} (h : t.length = 8) : bitsOfByte (BitVec.ofNat 8 (bitsToUInt t)) = t := by
  have hlt := bitsToUInt_lt t
  rw [h] at hlt
  rw [bitsOfByte, BitVec.toNat_ofNat, Nat.mod_eq_of_lt hlt, ← h, msbBits_bitsToUInt]

/-! ### Slices and chunks -/

theorem slice_length {s : BitSeq} {a b : Nat} (h : b ≤ s.length) : (slice s a b).length = b - a := by
  simp [slice, Nat.min_eq_left h]

theorem slice_getElem? (s : BitSeq) (a b i : Nat) :
    (slice s a b)[i]? = if a + i < b then s[a + i]? else none := by
  by_cases h : a + i < b <;> simp [slice, List.getElem?_drop, h]

theorem slice_of_append (s t u : BitSeq) (a b : Nat) (ha : a = s.length) (hb : b = s.length + t.length) :
    slice (s ++ t ++ u) a b = t := by
  subst ha hb
  rw [slice, ← List.length_append, List.take_left, List.drop_left]

theorem slice_all (s : BitSeq) : slice s 0 s.length = s := by simp [slice]

@[simp] theorem takeChunks_length (k n : Nat) (s : BitSeq) : (takeChunks k n s).length = n := by
  induction n generalizing s with
  | zero => rfl
  | succ n ih => simp [takeChunks, ih]

@[simp] theorem chunks_length (s : BitSeq) (k : Nat) : (chunks s k).length = s.length / k := by simp [chunks]

/-- R85: chunk `j` is the slice from `k*j` to `k*j + k`. -/
theorem takeChunks_getElem? (k n : Nat) (s : BitSeq) (j : Nat) :
    (takeChunks k n s)[j]? = if j < n then some (slice s (k * j) (k * j + k)) else none := by
  induction n generalizing s j with
  | zero => simp [takeChunks]
  | succ n ih =>
    cases j with
    | zero => simp [takeChunks, slice]
    | succ j =>
      rw [takeChunks, List.getElem?_cons_succ, ih]
      by_cases h : j < n
      · rw [if_pos h, if_pos (by omega)]
        refine congrArg some (List.ext_getElem? fun i => ?_)
        rw [slice_getElem?, slice_getElem?, List.getElem?_drop, Nat.mul_succ]
        by_cases h2 : k * j + i < k * j + k
        · rw [if_pos h2, if_pos (by omega), show k + (k * j + i) = k * j + k + i by omega]
        · rw [if_neg h2, if_neg (by omega)]
      · rw [if_neg h, if_neg (by omega)]

theorem chunks_getElem? (s : BitSeq) (k j : Nat) :
    (chunks s k)[j]? = if j < s.length / k then some (slice s (k * j) (k * j + k)) else none :=
  takeChunks_getElem? k (s.length / k) s j

/-- A first part of one chunk's length is the first chunk. -/
theorem chunks_append {k : Nat} (hk : 0 < k) {t : BitSeq} (ht : t.length = k) (s : BitSeq) :
    chunks (t ++ s) k = t :: chunks s k := by
  have h : (t ++ s).length / k = s.length / k + 1 := by
    rw [List.length_append, ht, Nat.add_comm, Nat.add_div_right _ hk]
  rw [chunks, h, takeChunks, List.take_left' ht, List.drop_left' ht]
  rfl

@[simp] theorem chunks_nil (k : Nat) : chunks [] k = [] := by simp [chunks, takeChunks]

/-- R85: the chunks of a concatenation of parts of one chunk's length are the parts. -/
theorem chunks_flatten {k : Nat} (hk : 0 < k) (ts : List BitSeq) (h : ∀ t ∈ ts, t.length = k) :
    chunks ts.flatten k = ts := by
  induction ts with
  | nil => simp
  | cons t ts ih =>
    rw [List.flatten_cons, chunks_append hk (h t List.mem_cons_self),
      ih fun u hu => h u (List.mem_cons_of_mem _ hu)]

/-- Every chunk has the chunk length. -/
theorem length_of_mem_chunks {k : Nat} {s t : BitSeq} (h : t ∈ chunks s k) : t.length = k := by
  obtain ⟨j, hj⟩ := List.getElem?_of_mem h
  rw [chunks_getElem?] at hj
  split at hj
  · rename_i hlt
    injection hj with hj
    have h1 : k * (s.length / k) ≤ s.length := Nat.mul_div_le s.length k
    have h2 : k * (j + 1) ≤ k * (s.length / k) := Nat.mul_le_mul_left k hlt
    rw [Nat.mul_succ] at h2
    rw [← hj, slice_length (by omega)]
    omega
  · exact absurd hj (by simp)

/-- The chunks of a sequence whose length is a multiple of the chunk length concatenate to it. -/
theorem flatten_chunks {k : Nat} (hk : 0 < k) (s : BitSeq) (h : s.length % k = 0) : (chunks s k).flatten = s := by
  obtain ⟨n, hn⟩ := Nat.dvd_of_mod_eq_zero h
  rw [chunks, hn, Nat.mul_div_cancel_left n hk]
  clear h
  induction n generalizing s with
  | zero => simpa [takeChunks, eq_comm] using hn
  | succ n ih =>
    rw [takeChunks, List.flatten_cons, ih (s.drop k) (by simp [hn, Nat.mul_succ]), List.take_append_drop]

/-- Part `j` of a concatenation of parts of one length. -/
theorem slice_flatten {k : Nat} (hk : 0 < k) (ts : List BitSeq) (h : ∀ t ∈ ts, t.length = k) (j : Nat)
    (hj : j < ts.length) : slice ts.flatten (k * j) (k * j + k) = ts[j] := by
  have hl : ts.flatten.length / k = ts.length := by rw [← chunks_length, chunks_flatten hk ts h]
  have hc := chunks_getElem? ts.flatten k j
  rw [chunks_flatten hk ts h, hl, if_pos hj, List.getElem?_eq_getElem hj] at hc
  exact (Option.some.inj hc).symm

theorem length_flatten_of_forall {k : Nat} (ts : List BitSeq) (h : ∀ t ∈ ts, t.length = k) :
    ts.flatten.length = k * ts.length := by
  induction ts with
  | nil => simp
  | cons t ts ih =>
    rw [List.flatten_cons, List.length_append, ih fun u hu => h u (List.mem_cons_of_mem _ hu), h t List.mem_cons_self,
      List.length_cons, Nat.mul_succ]
    omega

/-! ### Bytes -/

@[simp] theorem bitsOfBytes_length (p : List Byte) : (bitsOfBytes p).length = 8 * p.length := by
  rw [bitsOfBytes, List.flatMap_def, length_flatten_of_forall (k := 8) _ (by simp), List.length_map]

@[simp] theorem bytesOf_length (s : BitSeq) : (bytesOf s).length = s.length / 8 := by simp [bytesOf]

/-- R83: packing the bits of bytes gives the bytes. -/
theorem bytesOf_bitsOfBytes (p : List Byte) : bytesOf (bitsOfBytes p) = p := by
  rw [bytesOf, bitsOfBytes, List.flatMap_def, chunks_flatten (by decide) _ (by simp), List.map_map]
  conv_rhs => rw [← List.map_id p]
  exact List.map_congr_left fun x _ => by simp

/-- R83: the bits of packed bytes are the bits packed. -/
theorem bitsOfBytes_bytesOf (s : BitSeq) (h : s.length % 8 = 0) : bitsOfBytes (bytesOf s) = s := by
  conv_rhs => rw [← flatten_chunks (by decide : 0 < 8) s h]
  rw [bitsOfBytes, bytesOf, List.flatMap_def, List.map_map]
  conv_rhs => rw [← List.map_id (chunks s 8)]
  exact congrArg List.flatten (List.map_congr_left fun t ht => bitsOfByte_bitsToUInt (length_of_mem_chunks ht))

/-- Byte `j` packs the bits from `8*j` on. -/
theorem bytesOf_getElem? (s : BitSeq) (j : Nat) : (bytesOf s)[j]? =
    if j < s.length / 8 then some (BitVec.ofNat 8 (bitsToUInt (slice s (8 * j) (8 * j + 8)))) else none := by
  rw [bytesOf, List.getElem?_map, chunks_getElem?]
  by_cases h : j < s.length / 8 <;> simp [h]

end Sys2Proof.Machine
end

