-- ==== Sys2Proof/Laws/LineCode.lean ====
section
/-! SUPPORT. The laws of the line-code tables and of the batch lookup (spec/40_line_coding.md R103 to R105). -/

namespace Sys2Proof.Machine

/-! ### The contract ROM -/

/-- Every group is among the sixteen the ROM is searched over. -/
theorem mem_allGroups (g : Group) : g ∈ (List.range 16).map (BitVec.ofNat 4) :=
  List.mem_map.2 ⟨g.toNat, by simpa using g.isLt, by simp⟩

/-- A valid entry of LC_CON names a group whose codeword it is. -/
theorem lcExp_of_valid {table : Vector Codeword 16} {c : Codeword} (h : (lcCon table c).valid = true) :
    lcExp table (lcCon table c).group = c := by
  unfold lcCon at h ⊢
  split at h
  · rename_i g hg
    simpa using List.find?_some hg
  · exact absurd h (by simp)

/-- An entry is invalid exactly when no group has that codeword. -/
theorem lcCon_of_not_image {table : Vector Codeword 16} {c : Codeword} (h : ∀ g : Group, lcExp table g ≠ c) :
    lcCon table c = ⟨false, 0#4⟩ := by
  unfold lcCon
  rw [List.find?_eq_none.2 (by simpa using fun a _ => h (BitVec.ofNat 4 a))]
  rfl

/-- A codeword in the image has a valid entry. -/
theorem valid_of_image {table : Vector Codeword 16} (g : Group) : (lcCon table (lcExp table g)).valid = true := by
  unfold lcCon
  split
  · rfl
  · rename_i h
    exact absurd (List.find?_eq_none.1 h g (mem_allGroups g)) (by simp)

/-- The laws a parameter set has (R13) say that the table is injective. -/
theorem injectiveTable_of_ok {p : Config.Params} (h : p.ok) : injectiveTable p.lcTable := fun g k hgk => by
  have hn := h.1
  have hl : p.lcTable.toList.length = 16 := by simp
  have hg : g.toNat < p.lcTable.toList.length := by rw [hl]; exact g.isLt
  have hk : k.toNat < p.lcTable.toList.length := by rw [hl]; exact k.isLt
  have he : p.lcTable.toList[g.toNat] = p.lcTable.toList[k.toNat] := by
    simpa [lcExp, Vector.get, Vector.getElem_toList] using hgk
  exact BitVec.eq_of_toNat_eq ((List.Nodup.getElem_inj_iff hn).1 he)

/-! ### The batch lookup -/

/-- The batch lookup succeeds exactly when every group's lookup does, and then it concatenates them in order. -/
theorem codeChunks_eq_ok {f : BitSeq → Except Reason BitSeq} {ts : List BitSeq} {out : BitSeq} :
    codeChunks f ts = .ok out ↔ ∃ vs, List.Forall₂ (fun t v => f t = .ok v) ts vs ∧ out = vs.flatten := by
  induction ts generalizing out with
  | nil => simp [codeChunks, eq_comm]
  | cons t ts ih =>
    rw [codeChunks]
    cases hf : f t with
    | error e =>
      simp only [reduceCtorEq, false_iff]
      rintro ⟨_, h, -⟩
      cases h with
      | cons h1 _ => rw [hf] at h1; cases h1
    | ok v =>
      cases hc : codeChunks f ts with
      | error e =>
        simp only [reduceCtorEq, false_iff]
        rintro ⟨_, h, -⟩
        cases h with
        | cons _ h2 => rw [ih.2 ⟨_, h2, rfl⟩] at hc; cases hc
      | ok w =>
        obtain ⟨vs, hvs, rfl⟩ := ih.1 hc
        simp only [Except.ok.injEq]
        constructor
        · rintro rfl
          exact ⟨v :: vs, .cons hf hvs, rfl⟩
        · rintro ⟨_, h, rfl⟩
          cases h with
          | cons h1 h2 =>
            rw [hf] at h1
            cases h1
            rw [List.flatten_cons, ← Except.ok.inj (hc.symm.trans (ih.2 ⟨_, h2, rfl⟩))]

/-- A failure of the batch lookup is a failure of some group's lookup. -/
theorem exists_of_codeChunks_error {f : BitSeq → Except Reason BitSeq} {ts : List BitSeq} {e : Reason}
    (h : codeChunks f ts = .error e) : ∃ t ∈ ts, f t = .error e := by
  induction ts with
  | nil => simp [codeChunks] at h
  | cons t ts ih =>
    rw [codeChunks] at h
    cases hf : f t with
    | error e' => rw [hf] at h; cases h; exact ⟨t, List.mem_cons_self, hf⟩
    | ok v =>
      cases hc : codeChunks f ts with
      | error e' =>
        rw [hf, hc] at h
        cases h
        obtain ⟨u, hu, he⟩ := ih hc
        exact ⟨u, List.mem_cons_of_mem _ hu, he⟩
      | ok w => rw [hf, hc] at h; cases h

/-- R105: the length check comes first. -/
theorem changeCoding_misaligned {s : BitSeq} {k : Nat} (f : BitSeq → Except Reason BitSeq) (h : s.length % k ≠ 0) :
    changeCoding s f k = .error .misaligned := if_pos h

theorem changeCoding_aligned {s : BitSeq} {k : Nat} (f : BitSeq → Except Reason BitSeq) (h : s.length % k = 0) :
    changeCoding s f k = codeChunks f (chunks s k) := if_neg (by simp [h])

/-- R105: expansion of an aligned sequence cannot fail. -/
theorem changeCoding_expand (table : Vector Codeword 16) {s : BitSeq} (h : s.length % 4 = 0) :
    changeCoding s (expand table) 4 =
      .ok ((chunks s 4).map fun t => seq5 (lcExp table (BitVec.ofNat 4 (bitsToUInt t)))).flatten := by
  rw [changeCoding_aligned _ h, codeChunks_eq_ok]
  refine ⟨_, ?_, rfl⟩
  rw [List.forall₂_map_right_iff]
  exact List.forall₂_same.2 fun t _ => rfl

/-- R104: contraction of a codeword in the image. -/
theorem contract_of_valid {table : Vector Codeword 16} {t : BitSeq}
    (h : (lcCon table (BitVec.ofNat 5 (bitsToUInt t))).valid = true) :
    contract table t = .ok (seq4 (lcCon table (BitVec.ofNat 5 (bitsToUInt t))).group) := if_pos h

/-- R104: contraction of a codeword outside it. -/
theorem contract_of_invalid {table : Vector Codeword 16} {t : BitSeq}
    (h : (lcCon table (BitVec.ofNat 5 (bitsToUInt t))).valid = false) : contract table t = .error .invalidCodeword :=
  if_neg (by simp [h])

/-- R105: contraction of an aligned sequence of valid codewords. -/
theorem changeCoding_contract {table : Vector Codeword 16} {s : BitSeq} (h : s.length % 5 = 0)
    (hv : ∀ t ∈ chunks s 5, (lcCon table (BitVec.ofNat 5 (bitsToUInt t))).valid = true) :
    changeCoding s (contract table) 5 =
      .ok ((chunks s 5).map fun t => seq4 (lcCon table (BitVec.ofNat 5 (bitsToUInt t))).group).flatten := by
  rw [changeCoding_aligned _ h, codeChunks_eq_ok]
  refine ⟨_, ?_, rfl⟩
  rw [List.forall₂_map_right_iff]
  exact List.forall₂_same.2 fun t ht => contract_of_valid (hv t ht)

/-- R105: contraction of an aligned sequence with an invalid codeword anywhere. -/
theorem changeCoding_contract_invalid {table : Vector Codeword 16} {s t : BitSeq} (h : s.length % 5 = 0)
    (ht : t ∈ chunks s 5) (hv : (lcCon table (BitVec.ofNat 5 (bitsToUInt t))).valid = false) :
    changeCoding s (contract table) 5 = .error .invalidCodeword := by
  rw [changeCoding_aligned _ h]
  cases hc : codeChunks (contract table) (chunks s 5) with
  | error e =>
    obtain ⟨u, -, hu⟩ := exists_of_codeChunks_error hc
    unfold contract at hu
    simp only at hu
    split at hu <;> cases hu
    rfl
  | ok out =>
    obtain ⟨vs, hvs, -⟩ := codeChunks_eq_ok.1 hc
    obtain ⟨j, hj⟩ := List.getElem?_of_mem ht
    have hlen := hvs.length_eq
    have hj' : j < (chunks s 5).length := (List.getElem?_eq_some_iff.1 hj).1
    have := (List.forall₂_iff_get.1 hvs).2 j hj' (hlen ▸ hj')
    rw [List.getElem?_eq_getElem hj'] at hj
    simp only [List.get_eq_getElem, Option.some.inj hj] at this
    rw [contract_of_invalid hv] at this
    cases this

/-- R101, R105: contracting an expanded sequence gives it back. -/
theorem contract_expanded {table : Vector Codeword 16} (ht : injectiveTable table) {s lc : BitSeq}
    (h : changeCoding s (expand table) 4 = .ok lc) : changeCoding lc (contract table) 5 = .ok s := by
  have h4 : s.length % 4 = 0 := by
    by_contra hne
    rw [changeCoding_misaligned _ hne] at h
    cases h
  rw [changeCoding_expand table h4] at h
  cases h
  have h5 : ∀ t ∈ (chunks s 4).map fun t => seq5 (lcExp table (BitVec.ofNat 4 (bitsToUInt t))), t.length = 5 := by simp
  have hlen : (((chunks s 4).map fun t => seq5 (lcExp table (BitVec.ofNat 4 (bitsToUInt t)))).flatten).length % 5 = 0 := by
    rw [length_flatten_of_forall _ h5]
    omega
  rw [changeCoding_contract hlen (by
      rw [chunks_flatten (by decide) _ h5]
      simp [valid_of_image]), chunks_flatten (by decide) _ h5, List.map_map]
  conv_rhs => rw [← flatten_chunks (by decide : 0 < 4) s h4, ← List.map_id (chunks s 4)]
  refine congrArg (fun l => Except.ok (List.flatten l)) (List.map_congr_left fun t hmem => ?_)
  have hg := ht _ _ (lcExp_of_valid (valid_of_image (table := table) (BitVec.ofNat 4 (bitsToUInt t))))
  simp [hg, seq4_bitsToUInt (length_of_mem_chunks hmem)]

end Sys2Proof.Machine
end

