-- ==== Sys2Proof/Laws/Codec.lean ====
section
/-! SUPPORT. What the pure functions of the codec compute, one lemma per way each can end: slices, the line code group by group, the
NRZI coders, the preamble matcher, the raw frame's fields, `splitFrame` and `decodeFrame`. -/

namespace Sys2Proof.Machine

/-! ### Slices -/

/-- A slice inside the first part of a concatenation. -/
theorem slice_append_left {s t : BitSeq} {a b} (h : b ≤ s.length) : slice (s ++ t) a b = slice s a b := by
  rw [slice, slice, List.take_append_of_le_length h]

/-- A slice inside the second part of a concatenation. -/
theorem slice_append_right {s t : BitSeq} {a b} (h : s.length ≤ a) :
    slice (s ++ t) a b = slice t (a - s.length) (b - s.length) := by
  refine List.ext_getElem? fun i => ?_
  rw [slice_getElem?, slice_getElem?, List.getElem?_append_right (by omega)]
  by_cases hb : a + i < b
  · rw [if_pos hb, if_pos (by omega)]; congr 1; omega
  · rw [if_neg hb, if_neg (by omega)]

/-- The whole sequence as a slice. -/
theorem slice_full {s : BitSeq} {b} (h : b = s.length) : slice s 0 b = s := by subst h; exact slice_all s

/-- R85: the chunks are the slices at the multiples of the chunk length. -/
theorem mem_chunks_iff {s : BitSeq} {k : Nat} {t} : t ∈ chunks s k ↔ ∃ j < s.length / k, t = slice s (k*j) (k*j+k) := by
  rw [List.mem_iff_getElem?]
  simp only [chunks_getElem?]
  constructor
  · rintro ⟨j, hj⟩; split at hj <;> simp_all; exact ⟨j, ‹_›, hj.symm⟩
  · rintro ⟨j, hj, rfl⟩; exact ⟨j, by simp [hj]⟩

/-! ### The line code, group by group -/

/-- R108: an aligned sequence expands, group `j` to codeword `j`. -/
theorem expand_slices (table) {s : BitSeq} (h : s.length % 4 = 0) :
    ∃ lc, changeCoding s (expand table) 4 = .ok lc ∧ lc.length = 5 * (s.length / 4) ∧
    ∀ j < s.length / 4, slice lc (5 * j) (5 * j + 5) = seq5 (lcExp table (BitVec.ofNat 4 (bitsToUInt (slice s (4 * j) (4 * j + 4))))) := by
  have h5 : ∀ t ∈ (chunks s 4).map fun t => seq5 (lcExp table (BitVec.ofNat 4 (bitsToUInt t))), t.length = 5 := by simp
  refine ⟨_, changeCoding_expand _ h, by rw [length_flatten_of_forall _ h5]; simp, fun j hj => ?_⟩
  have hj' : j < ((chunks s 4).map fun t => seq5 (lcExp table (BitVec.ofNat 4 (bitsToUInt t)))).length := by simpa
  rw [slice_flatten (by decide) _ h5 j hj', List.getElem_map]
  congr
  have := chunks_getElem? s 4 j
  rw [if_pos (by simpa using hj), List.getElem?_eq_getElem (by simpa using hj)] at this
  exact Option.some.inj this

/-- R109: an aligned sequence of valid codewords contracts, codeword `j` to group `j`. -/
theorem contract_slices {table s} (hlen : List.length s % 5 = 0)
    (hv : ∀ j < List.length s / 5, (lcCon table (BitVec.ofNat 5 (bitsToUInt (slice s (5 * j) (5 * j + 5))))).valid = true) :
   ∃ out, changeCoding s (contract table) 5 = .ok out ∧ out.length = 4 * (s.length / 5) ∧
    ∀ j < s.length / 5, slice out (4 * j) (4 * j + 4) = seq4 (lcCon table (BitVec.ofNat 5 (bitsToUInt (slice s (5 * j) (5 * j + 5))))).group := by
  have h4 : ∀ t ∈ (chunks s 5).map fun t => seq4 (lcCon table (BitVec.ofNat 5 (bitsToUInt t))).group, t.length = 4 := by simp
  refine ⟨_, changeCoding_contract hlen ?_, ?_, fun j hj => ?_⟩
  · intro t ht
    obtain ⟨j, hj, rfl⟩ := mem_chunks_iff.1 ht
    exact hv j hj
  · rw [length_flatten_of_forall _ h4]; simp
  · have hj' : j < ((chunks s 5).map fun t => seq4 (lcCon table (BitVec.ofNat 5 (bitsToUInt t))).group).length :=
    by simpa
    rw [slice_flatten (by decide) _ h4 j hj', List.getElem_map]
    congr
    have := chunks_getElem? s 5 j
    rw [if_pos (by simpa using hj), List.getElem?_eq_getElem (by simpa using hj)] at this
    exact Option.some.inj this

/-- R105: an aligned sequence with an invalid codeword does not contract. -/
theorem contract_fails {table s} (hlen : List.length s % 5 = 0)
    (hv : ¬ ∀ j < List.length s / 5, (lcCon table (BitVec.ofNat 5 (bitsToUInt (slice s (5 * j) (5 * j + 5))))).valid = true) : changeCoding s (contract table) 5 = .error .invalidCodeword := by
  simp only [not_forall] at hv
  obtain ⟨j, hj, hv⟩ := hv
  exact changeCoding_contract_invalid hlen (mem_chunks_iff.2 ⟨j, hj, rfl⟩) (by simpa using hv)

/-! ### NRZI -/

/-- R112: the encoder keeps the length. -/
theorem toDifferential_length (b : BitSeq) (l : Bool) : (toDifferential b l).length = b.length := by
  induction b generalizing l with
  | nil => rfl
  | cons x b ih => simp [toDifferential, ih]

/-- R113: the decoder keeps the length. -/
theorem fromDifferential_length (b : BitSeq) (l : Bool) : (fromDifferential b l).length = b.length := by
  induction b generalizing l with
  | nil => rfl
  | cons x b ih => simp [fromDifferential, ih]

/-- The encoder's first outputs depend on the first inputs alone. -/
theorem toDifferential_take (b : BitSeq) (l n) : toDifferential (b.take n) l = (toDifferential b l).take n := by
  induction b generalizing l n with
  | nil => simp [toDifferential]
  | cons x b ih => cases n <;> simp [toDifferential, ih]

/-- The decoder's first outputs depend on the first inputs alone. -/
theorem fromDifferential_take (b : BitSeq) (l n) : fromDifferential (b.take n) l = (fromDifferential b l).take n := by
  induction b generalizing l n with
  | nil => simp [fromDifferential]
  | cons x b ih => cases n <;> simp [fromDifferential, ih]

/-! ### The preamble -/

/-- R131. -/
theorem preRom_length : preRom.length = 64 := rfl

/-- R132. -/
theorem matchPreamble_iff (x : BitSeq) : matchPreamble x = true ↔ 64 ≤ x.length ∧ x.take 64 = preRom := by
  simp [matchPreamble]

/-- R132: anything after a preamble still matches. -/
theorem matchPreamble_preRom (y : BitSeq) : matchPreamble (preRom ++ y) = true := by
  rw [matchPreamble_iff]; exact ⟨by rw [List.length_append, preRom_length]; omega, by rw [List.take_append_of_le_length (by rw [preRom_length])]; rfl⟩

/-! ### The raw frame -/

/-- R150: the length of the raw frame before its CRC. -/
theorem rawHead_length (src tgt p) : (rawHead src tgt p).length = 112 + 8 * p.length := by
  simp [rawHead]; omega

/-- R150: marshalling in range succeeds. -/
theorem marshal_ok {src tgt : Nat} {p : List Byte} (hs : src < 2^48) (ht : tgt < 2^48) (hp : p.length ≤ 65535) :
   marshal src tgt p = .ok (rawHead src tgt p ++ b32 (crc32 (bytesOf (rawHead src tgt p)))) := by
  rw [marshal, if_neg (by simp only [Config.addrBits]; omega), if_neg (by simp only [Config.maxPayload]; omega)]

/-- R87: the fields of a raw frame, for any declared length and any CRC field, each at its position. -/
theorem raw_fields (tgt src decl : Nat) (p : List Byte) (c : BitVec 32) :
  let h := b48 tgt ++ b48 src ++ b16 decl ++ bitsOfBytes p
  let raw := h ++ b32 c
  raw.length = 144 + 8 * p.length ∧ slice raw 0 48 = b48 tgt ∧ slice raw 48 96 = b48 src ∧
    slice raw 96 112 = b16 decl ∧ slice raw 112 (112 + 8 * p.length) = bitsOfBytes p ∧
    slice raw (112 + 8 * p.length) (144 + 8 * p.length) = b32 c ∧ slice raw 0 (112 + 8 * p.length) = h := by
  intro h raw
  have e0 : raw = b48 tgt ++ (b48 src ++ (b16 decl ++ (bitsOfBytes p ++ b32 c))) := by simp [raw, h, List.append_assoc]
  refine ⟨by simp [raw, h]; omega, ?_, ?_, ?_, ?_, ?_, ?_⟩
  · rw [e0, slice_append_left (by simp), slice_full (by simp)]
  · rw [e0, slice_append_right (by simp), slice_append_left (by simp), b48_length, slice_full (by simp)]
  · rw [e0, slice_append_right (by simp), slice_append_right (by simp), slice_append_left (by simp)]; simp only [b48_length]; rw [slice_full (by simp)]
  · rw [e0, slice_append_right (by simp), slice_append_right (by simp), slice_append_right (by simp),
    slice_append_left (by simp; omega)]; simp only [b48_length, b16_length];
    rw [show 112 - 48 - 48 - 16 = 0 from rfl, slice_full (by simp; omega)]
  · have hl : h.length = 112 + 8 * p.length := by simp [h]; omega
    rw [slice_append_right (by omega), hl, Nat.sub_self, slice_full (by simp; omega)]
  · have hl : h.length = 112 + 8 * p.length := by simp [h]; omega
    rw [slice_append_left (by omega), ← hl, slice_all]

/-- R152, step 1. -/
theorem splitFrame_short {r : BitSeq} (h : r.length < 144) : splitFrame r = .error .shortFrame := if_pos h

/-- R152, step 2. -/
theorem splitFrame_odd {r : BitSeq} (h : 144 ≤ r.length) (h2 : r.length % 8 ≠ 0) :
    splitFrame r = .error .lengthMismatch := by
  rw [splitFrame, if_neg (by simp [Config.minRawBits]; omega), if_pos h2]

/-- R152, the CRC check. -/
theorem splitFrame_badCrc {r : BitSeq} (h : 144 ≤ r.length) (h2 : r.length % 8 = 0)
    (h3 : bitsToUInt (slice r (r.length - 32) r.length) ≠ (crc32 (bytesOf (slice r 0 (r.length - 32)))).toNat) :
    splitFrame r = .error .crcMismatch := by
  rw [splitFrame, if_neg (by simp [Config.minRawBits]; omega), if_neg (by omega)]
  exact if_pos h3

/-- The payload field's length. -/
theorem body_length {r : BitSeq} (h : 144 ≤ r.length) : (slice r 112 (r.length - 32)).length = r.length - 144 := by
  rw [slice_length (by omega)]; omega

/-- R152, the length check. -/
theorem splitFrame_badLength {r : BitSeq} (h : 144 ≤ r.length) (h2 : r.length % 8 = 0)
    (h3 : bitsToUInt (slice r (r.length - 32) r.length) = (crc32 (bytesOf (slice r 0 (r.length - 32)))).toNat)
    (h4 : bitsToUInt (slice r 96 112) ≠ (r.length - 144) / 8) : splitFrame r = .error .lengthMismatch := by
  rw [splitFrame, if_neg (by simp [Config.minRawBits]; omega), if_neg (by omega)]
  dsimp only
  rw [if_neg (by simpa using h3), if_pos]
  rw [body_length h]; right; exact Ne.symm h4

/-- R152, the end: the three fields. -/
theorem splitFrame_ok {r : BitSeq} (h : 144 ≤ r.length) (h2 : r.length % 8 = 0)
    (h3 : bitsToUInt (slice r (r.length - 32) r.length) = (crc32 (bytesOf (slice r 0 (r.length - 32)))).toNat)
    (h4 : bitsToUInt (slice r 96 112) = (r.length - 144) / 8) : splitFrame r = .ok ⟨bitsToUInt (slice r 48 96),
    bitsToUInt (slice r 0 48), bytesOf (slice r 112 (r.length - 32))⟩ := by
  rw [splitFrame, if_neg (by simp [Config.minRawBits]; omega), if_neg (by omega)]
  dsimp only
  rw [if_neg (by simpa using h3), if_neg]
  rw [body_length h]; omega

/-- R152: the only ways `splitFrame` can end. -/
theorem splitFrame_cases (r : BitSeq) : (∃ f, splitFrame r = .ok f) ∨ splitFrame r = .error .shortFrame ∨
    splitFrame r = .error .crcMismatch ∨ splitFrame r = .error .lengthMismatch := by
  by_cases h : r.length < 144
  · exact .inr (.inl (splitFrame_short h))
  by_cases h2 : r.length % 8 = 0
  · by_cases h3 : bitsToUInt (slice r (r.length - 32) r.length) = (crc32 (bytesOf (slice r 0 (r.length - 32)))).toNat
    · by_cases h4 : bitsToUInt (slice r 96 112) = (r.length - 144) / 8
      · exact .inl ⟨_, splitFrame_ok (by omega) h2 h3 h4⟩
      · exact .inr (.inr (.inr (splitFrame_badLength (by omega) h2 h3 h4)))
    · exact .inr (.inr (.inl (splitFrame_badCrc (by omega) h2 h3)))
  · exact .inr (.inr (.inr (splitFrame_odd (by omega) h2)))

/-- R152: what a frame that splits satisfies. -/
theorem ok_of_splitFrame {r : BitSeq} {f} (hf : splitFrame r = .ok f) : 144 ≤ r.length ∧ r.length % 8 = 0 ∧
    bitsToUInt (slice r (r.length - 32) r.length) = (crc32 (bytesOf (slice r 0 (r.length - 32)))).toNat ∧
    bitsToUInt (slice r 96 112) = (r.length - 144) / 8 ∧ f = ⟨bitsToUInt (slice r 48 96),
    bitsToUInt (slice r 0 48), bytesOf (slice r 112 (r.length - 32))⟩ := by
  by_cases h : r.length < 144
  · rw [splitFrame_short h] at hf; cases hf
  by_cases h2 : r.length % 8 = 0
  · by_cases h3 : bitsToUInt (slice r (r.length - 32) r.length) = (crc32 (bytesOf (slice r 0 (r.length - 32)))).toNat
    · by_cases h4 : bitsToUInt (slice r 96 112) = (r.length - 144) / 8
      · rw [splitFrame_ok (by omega) h2 h3 h4] at hf; cases hf; exact ⟨by omega, h2, h3, h4, rfl⟩
      · rw [splitFrame_badLength (by omega) h2 h3 h4] at hf; cases hf
    · rw [splitFrame_badCrc (by omega) h2 h3] at hf; cases hf
  · rw [splitFrame_odd (by omega) h2] at hf; cases hf

/-- The bounds of the delivered fields. -/
theorem splitFrame_bounds {r : BitSeq} {f} (hf : splitFrame r = .ok f) : f.src < 2^64 ∧ f.tgt < 2^64 ∧
    f.payload.length = (r.length - 144)/8 := by
  obtain ⟨h, -, -, -, rfl⟩ := ok_of_splitFrame hf
  have h1 := bitsToUInt_lt (slice r 48 96)
  have h2 := bitsToUInt_lt (slice r 0 48)
  rw [slice_length (by omega)] at h1 h2
  refine ⟨?_, ?_, ?_⟩
  · dsimp only; omega
  · dsimp only; omega
  · dsimp only; rw [bytesOf_length, body_length h]

/-- R153, step 1. -/
theorem decodeFrame_short (table) {x : BitSeq} (h : x.length < 144) :
    decodeFrame table x = .error .shortInput := if_pos h

/-- R153, step 2. -/
theorem decodeFrame_noPreamble (table) {x : BitSeq} (h : 144 ≤ x.length) (h2 : matchPreamble x = false) :
    decodeFrame table x = .error .noPreamble := by
  rw [decodeFrame, if_neg (by simp [Config.minRawBits]; omega), if_pos h2]

/-- R153, steps 3 and 4: a failure of the contraction is the command's. -/
theorem decodeFrame_codingError (table) {x : BitSeq} {e} (h : 144 ≤ x.length) (h2 : matchPreamble x = true)
    (h3 : changeCoding (fromDifferential (x.drop 64) true) (contract table) 5 = .error e) :
    decodeFrame table x = .error e := by
  rw [decodeFrame, if_neg (by simp [Config.minRawBits]; omega), if_neg (by simp [h2])]
  simp only [Config.preBits, Config.sysSeed, h3]

/-- R153, steps 3 to 5. -/
theorem decodeFrame_raw (table) {x raw : BitSeq} (h : 144 ≤ x.length) (h2 : matchPreamble x = true)
    (h3 : changeCoding (fromDifferential (x.drop 64) true) (contract table) 5 = .ok raw) :
    decodeFrame table x = splitFrame raw := by
  rw [decodeFrame, if_neg (by simp [Config.minRawBits]; omega), if_neg (by simp [h2])]
  simp only [Config.preBits, Config.sysSeed, h3]

end Sys2Proof.Machine
end

