-- ==== Sys2Proof/Laws/Memory.lean ====
section
/-! SUPPORT. The laws of a buffer's cells: what a write makes each cell read as, and that every operation keeps the canonical
form and the bound on the indices. -/

namespace Sys2Proof.Machine.Memory

variable {α : Type}

@[simp] theorem get?_nil (i : Nat) : Memory.get? ([] : Memory α) i = none := rfl

/-- A write reaches the cell it names and no other. -/
@[simp] theorem get?_set (m : Memory α) (i : Nat) (v : α) (j : Nat) :
    Memory.get? (Memory.set m i v) j = if j = i then some v else Memory.get? m j := by
  induction m with
  | nil =>
    by_cases h : i = j
    · simp [Memory.set, Memory.get?, h]
    · simp [Memory.set, Memory.get?, h, Ne.symm h]
  | cons c m ih =>
    obtain ⟨k, w⟩ := c
    simp only [Memory.set]
    split
    · by_cases h : i = j
      · simp [Memory.get?, h]
      · simp [Memory.get?, h, Ne.symm h]
    · split
      · rename_i h1 h2
        subst h2
        by_cases h : i = j
        · simp [Memory.get?, h]
        · simp [Memory.get?, h, Ne.symm h]
      · by_cases hk : k = j
        · have : ¬ j = i := by omega
          simp [Memory.get?, hk, this]
        · simp [Memory.get?, hk, ih]

/-- A run of writes from `k` on reaches the cells `k .. k + length - 1` and no other. -/
theorem get?_writeFrom (m : Memory α) (xs : List α) (k j : Nat) :
    Memory.get? (Memory.writeFrom m k xs) j =
      if k ≤ j ∧ j < k + xs.length then xs[j - k]? else Memory.get? m j := by
  induction xs generalizing k with
  | nil =>
    have : ¬ (k ≤ j ∧ j < k + 0) := by omega
    simp only [Memory.writeFrom, List.length_nil, if_neg this]
  | cons x xs ih =>
    simp only [Memory.writeFrom, get?_set, ih, List.length_cons]
    rcases Nat.lt_trichotomy j k with h | rfl | h
    · rw [if_neg (by omega), if_neg (by omega), if_neg (by omega)]
    · simp
    · rw [if_neg (by omega)]
      by_cases h2 : j < k + (xs.length + 1)
      · rw [if_pos (by omega), if_pos (by omega), show j - k = j - (k + 1) + 1 by omega, List.getElem?_cons_succ]
      · rw [if_neg (by omega), if_neg (by omega)]

/-- A run of writes from cell 0 (R56, R155, R171). -/
theorem get?_writeFrom_zero (m : Memory α) (xs : List α) (j : Nat) :
    Memory.get? (Memory.writeFrom m 0 xs) j = (xs[j]?).or (Memory.get? m j) := by
  rw [get?_writeFrom]
  by_cases h : j < xs.length
  · simp [h]
  · simp [h]

/-- The indices after a write: the old ones and the written one. -/
theorem mem_set_fst {m : Memory α} {i : Nat} {v : α} {c : Nat × α} (h : c ∈ Memory.set m i v) :
    c.1 = i ∨ ∃ d ∈ m, d.1 = c.1 := by
  induction m with
  | nil => simp [Memory.set] at h; simp [h]
  | cons d m ih =>
    obtain ⟨k, w⟩ := d
    simp only [Memory.set] at h
    split at h
    · rcases List.mem_cons.1 h with rfl | h
      · exact .inl rfl
      · exact .inr ⟨c, h, rfl⟩
    · split at h
      · rcases List.mem_cons.1 h with rfl | h
        · exact .inl rfl
        · exact .inr ⟨c, List.mem_cons_of_mem _ h, rfl⟩
      · rcases List.mem_cons.1 h with rfl | h
        · exact .inr ⟨(k, w), List.mem_cons_self, rfl⟩
        · rcases ih h with h | ⟨d, hd, he⟩
          · exact .inl h
          · exact .inr ⟨d, List.mem_cons_of_mem _ hd, he⟩

/-- A write keeps the canonical form. -/
theorem wf_set {m : Memory α} (h : Memory.wf m) (i : Nat) (v : α) : Memory.wf (Memory.set m i v) := by
  induction m with
  | nil => simp [Memory.set, Memory.wf]
  | cons d m ih =>
    obtain ⟨k, w⟩ := d
    have hk : ∀ a ∈ m.map Prod.fst, k < a := (List.pairwise_cons.1 h).1
    have hm : Memory.wf m := (List.pairwise_cons.1 h).2
    simp only [Memory.set]
    split
    · rename_i hlt
      refine List.pairwise_cons.2 ⟨fun a ha => ?_, h⟩
      rcases List.mem_cons.1 ha with rfl | ha
      · exact hlt
      · exact Nat.lt_trans hlt (hk a ha)
    · split
      · rename_i heq
        exact List.pairwise_cons.2 ⟨fun a ha => heq ▸ hk a ha, hm⟩
      · refine List.pairwise_cons.2 ⟨fun a ha => ?_, ih hm⟩
        obtain ⟨c, hc, rfl⟩ := List.mem_map.1 ha
        rcases mem_set_fst hc with he | ⟨d, hd, he⟩
        · show k < c.1
          omega
        · exact he ▸ hk d.1 (List.mem_map.2 ⟨d, hd, rfl⟩)

/-- A run of writes keeps the canonical form. -/
theorem wf_writeFrom {m : Memory α} (h : Memory.wf m) (k : Nat) (xs : List α) : Memory.wf (Memory.writeFrom m k xs) := by
  induction xs generalizing k with
  | nil => exact h
  | cons x xs ih => exact wf_set (ih (k + 1)) k x

/-- A write below the capacity keeps every index below it. -/
theorem within_set {m : Memory α} {cap i : Nat} (h : Memory.within m cap) (hi : i < cap) (v : α) :
    Memory.within (Memory.set m i v) cap := fun c hc => by
  rcases mem_set_fst hc with he | ⟨d, hd, he⟩
  · omega
  · exact he ▸ h d hd

/-- A run of writes below the capacity keeps every index below it. -/
theorem within_writeFrom {m : Memory α} {cap : Nat} (h : Memory.within m cap) (k : Nat) (xs : List α)
    (hk : k + xs.length ≤ cap) : Memory.within (Memory.writeFrom m k xs) cap := by
  induction xs generalizing k with
  | nil => exact h
  | cons x xs ih =>
    simp only [List.length_cons] at hk
    exact within_set (ih (k + 1) (by omega)) (by omega) x

/-! ### The buffers of the state -/

/-- The buffers of the reset state have the canonical form and lie below the capacities. -/
theorem wf_reset : Memory.wf State.reset.ibuf ∧ Memory.wf State.reset.obuf ∧ Memory.wf State.reset.pbuf ∧
    Memory.within State.reset.ibuf State.reset.par.ibufCap ∧ Memory.within State.reset.obuf State.reset.par.obufCap ∧
    Memory.within State.reset.pbuf State.reset.par.pbufCap := by
  simp [State.reset, Memory.wf, Memory.within]

/-- A host write to IBUF keeps the canonical form and the bound. -/
theorem wf_hostWriteIbuf {s : State} (i : Nat) (b : Bool) (h : Memory.wf s.ibuf) (hw : Memory.within s.ibuf s.par.ibufCap) :
    Memory.wf (hostWriteIbuf i b s).ibuf ∧ Memory.within (hostWriteIbuf i b s).ibuf s.par.ibufCap := by
  unfold hostWriteIbuf
  split
  · exact ⟨wf_set h i b, within_set hw ‹_› b⟩
  · exact ⟨h, hw⟩

/-- A host write to PBUF keeps the canonical form and the bound. -/
theorem wf_hostWritePbuf {s : State} (j : Nat) (x : Byte) (h : Memory.wf s.pbuf) (hw : Memory.within s.pbuf s.par.pbufCap) :
    Memory.wf (hostWritePbuf j x s).pbuf ∧ Memory.within (hostWritePbuf j x s).pbuf s.par.pbufCap := by
  unfold hostWritePbuf
  split
  · exact ⟨wf_set h j x, within_set hw ‹_› x⟩
  · exact ⟨h, hw⟩

end Sys2Proof.Machine.Memory
end

