-- ==== Sys2Proof/Laws/State.lean ====
section
/-! SUPPORT. One lemma per field per update of State, each true by rfl, so that no later proof unfolds a record
update; and the cells a fixed buffer reads as. -/

namespace Sys2Proof.Machine

/-! ### `succeed` -/

@[simp] theorem succeed_par (s : State) : (succeed s).par = s.par := rfl
@[simp] theorem succeed_cmd (s : State) : (succeed s).cmd = s.cmd := rfl
@[simp] theorem succeed_status (s : State) : (succeed s).status = statusSuccess := rfl
@[simp] theorem succeed_res (s : State) : (succeed s).res = s.res := rfl
@[simp] theorem succeed_src (s : State) : (succeed s).src = s.src := rfl
@[simp] theorem succeed_tgt (s : State) : (succeed s).tgt = s.tgt := rfl
@[simp] theorem succeed_ibufLen (s : State) : (succeed s).ibufLen = s.ibufLen := rfl
@[simp] theorem succeed_obufLen (s : State) : (succeed s).obufLen = s.obufLen := rfl
@[simp] theorem succeed_pbufLen (s : State) : (succeed s).pbufLen = s.pbufLen := rfl
@[simp] theorem succeed_crcAcc (s : State) : (succeed s).crcAcc = s.crcAcc := rfl
@[simp] theorem succeed_nrz (s : State) : (succeed s).nrz = s.nrz := rfl
@[simp] theorem succeed_pm (s : State) : (succeed s).pm = s.pm := rfl
@[simp] theorem succeed_ibuf (s : State) : (succeed s).ibuf = s.ibuf := rfl
@[simp] theorem succeed_obuf (s : State) : (succeed s).obuf = s.obuf := rfl
@[simp] theorem succeed_pbuf (s : State) : (succeed s).pbuf = s.pbuf := rfl
@[simp] theorem succeed_resetEpoch (s : State) : (succeed s).resetEpoch = s.resetEpoch := rfl
@[simp] theorem succeed_pending (s : State) : (succeed s).pending = s.pending := rfl
@[simp] theorem succeed_reply (s : State) : (succeed s).reply = s.reply := rfl

/-! ### `fail` -/

@[simp] theorem fail_par (r : Reason) (s : State) : (fail r s).par = s.par := rfl
@[simp] theorem fail_cmd (r : Reason) (s : State) : (fail r s).cmd = s.cmd := rfl
@[simp] theorem fail_status (r : Reason) (s : State) : (fail r s).status = statusFailure r := rfl
@[simp] theorem fail_res (r : Reason) (s : State) : (fail r s).res = s.res := rfl
@[simp] theorem fail_src (r : Reason) (s : State) : (fail r s).src = s.src := rfl
@[simp] theorem fail_tgt (r : Reason) (s : State) : (fail r s).tgt = s.tgt := rfl
@[simp] theorem fail_ibufLen (r : Reason) (s : State) : (fail r s).ibufLen = s.ibufLen := rfl
@[simp] theorem fail_obufLen (r : Reason) (s : State) : (fail r s).obufLen = s.obufLen := rfl
@[simp] theorem fail_pbufLen (r : Reason) (s : State) : (fail r s).pbufLen = s.pbufLen := rfl
@[simp] theorem fail_crcAcc (r : Reason) (s : State) : (fail r s).crcAcc = s.crcAcc := rfl
@[simp] theorem fail_nrz (r : Reason) (s : State) : (fail r s).nrz = s.nrz := rfl
@[simp] theorem fail_pm (r : Reason) (s : State) : (fail r s).pm = s.pm := rfl
@[simp] theorem fail_ibuf (r : Reason) (s : State) : (fail r s).ibuf = s.ibuf := rfl
@[simp] theorem fail_obuf (r : Reason) (s : State) : (fail r s).obuf = s.obuf := rfl
@[simp] theorem fail_pbuf (r : Reason) (s : State) : (fail r s).pbuf = s.pbuf := rfl
@[simp] theorem fail_resetEpoch (r : Reason) (s : State) : (fail r s).resetEpoch = s.resetEpoch := rfl
@[simp] theorem fail_pending (r : Reason) (s : State) : (fail r s).pending = s.pending := rfl
@[simp] theorem fail_reply (r : Reason) (s : State) : (fail r s).reply = s.reply := rfl

/-! ### `latchCmd` -/

@[simp] theorem latchCmd_par (w : Word) (s : State) : (latchCmd w s).par = s.par := rfl
@[simp] theorem latchCmd_cmd (w : Word) (s : State) : (latchCmd w s).cmd = w := rfl
@[simp] theorem latchCmd_status (w : Word) (s : State) : (latchCmd w s).status = s.status := rfl
@[simp] theorem latchCmd_res (w : Word) (s : State) : (latchCmd w s).res = s.res := rfl
@[simp] theorem latchCmd_src (w : Word) (s : State) : (latchCmd w s).src = s.src := rfl
@[simp] theorem latchCmd_tgt (w : Word) (s : State) : (latchCmd w s).tgt = s.tgt := rfl
@[simp] theorem latchCmd_ibufLen (w : Word) (s : State) : (latchCmd w s).ibufLen = s.ibufLen := rfl
@[simp] theorem latchCmd_obufLen (w : Word) (s : State) : (latchCmd w s).obufLen = s.obufLen := rfl
@[simp] theorem latchCmd_pbufLen (w : Word) (s : State) : (latchCmd w s).pbufLen = s.pbufLen := rfl
@[simp] theorem latchCmd_crcAcc (w : Word) (s : State) : (latchCmd w s).crcAcc = s.crcAcc := rfl
@[simp] theorem latchCmd_nrz (w : Word) (s : State) : (latchCmd w s).nrz = s.nrz := rfl
@[simp] theorem latchCmd_pm (w : Word) (s : State) : (latchCmd w s).pm = s.pm := rfl
@[simp] theorem latchCmd_ibuf (w : Word) (s : State) : (latchCmd w s).ibuf = s.ibuf := rfl
@[simp] theorem latchCmd_obuf (w : Word) (s : State) : (latchCmd w s).obuf = s.obuf := rfl
@[simp] theorem latchCmd_pbuf (w : Word) (s : State) : (latchCmd w s).pbuf = s.pbuf := rfl
@[simp] theorem latchCmd_resetEpoch (w : Word) (s : State) : (latchCmd w s).resetEpoch = s.resetEpoch := rfl
@[simp] theorem latchCmd_pending (w : Word) (s : State) : (latchCmd w s).pending = s.pending := rfl
@[simp] theorem latchCmd_reply (w : Word) (s : State) : (latchCmd w s).reply = s.reply := rfl

/-! ### `setRes` -/

@[simp] theorem setRes_par (v : BitVec 32) (s : State) : (setRes v s).par = s.par := rfl
@[simp] theorem setRes_cmd (v : BitVec 32) (s : State) : (setRes v s).cmd = s.cmd := rfl
@[simp] theorem setRes_status (v : BitVec 32) (s : State) : (setRes v s).status = s.status := rfl
@[simp] theorem setRes_res (v : BitVec 32) (s : State) : (setRes v s).res = v := rfl
@[simp] theorem setRes_src (v : BitVec 32) (s : State) : (setRes v s).src = s.src := rfl
@[simp] theorem setRes_tgt (v : BitVec 32) (s : State) : (setRes v s).tgt = s.tgt := rfl
@[simp] theorem setRes_ibufLen (v : BitVec 32) (s : State) : (setRes v s).ibufLen = s.ibufLen := rfl
@[simp] theorem setRes_obufLen (v : BitVec 32) (s : State) : (setRes v s).obufLen = s.obufLen := rfl
@[simp] theorem setRes_pbufLen (v : BitVec 32) (s : State) : (setRes v s).pbufLen = s.pbufLen := rfl
@[simp] theorem setRes_crcAcc (v : BitVec 32) (s : State) : (setRes v s).crcAcc = s.crcAcc := rfl
@[simp] theorem setRes_nrz (v : BitVec 32) (s : State) : (setRes v s).nrz = s.nrz := rfl
@[simp] theorem setRes_pm (v : BitVec 32) (s : State) : (setRes v s).pm = s.pm := rfl
@[simp] theorem setRes_ibuf (v : BitVec 32) (s : State) : (setRes v s).ibuf = s.ibuf := rfl
@[simp] theorem setRes_obuf (v : BitVec 32) (s : State) : (setRes v s).obuf = s.obuf := rfl
@[simp] theorem setRes_pbuf (v : BitVec 32) (s : State) : (setRes v s).pbuf = s.pbuf := rfl
@[simp] theorem setRes_resetEpoch (v : BitVec 32) (s : State) : (setRes v s).resetEpoch = s.resetEpoch := rfl
@[simp] theorem setRes_pending (v : BitVec 32) (s : State) : (setRes v s).pending = s.pending := rfl
@[simp] theorem setRes_reply (v : BitVec 32) (s : State) : (setRes v s).reply = s.reply := rfl

/-! ### `takeAccess` -/

@[simp] theorem takeAccess_par (rest : List HostAccess) (s : State) : (takeAccess rest s).par = s.par := rfl
@[simp] theorem takeAccess_cmd (rest : List HostAccess) (s : State) : (takeAccess rest s).cmd = s.cmd := rfl
@[simp] theorem takeAccess_status (rest : List HostAccess) (s : State) : (takeAccess rest s).status = s.status := rfl
@[simp] theorem takeAccess_res (rest : List HostAccess) (s : State) : (takeAccess rest s).res = s.res := rfl
@[simp] theorem takeAccess_src (rest : List HostAccess) (s : State) : (takeAccess rest s).src = s.src := rfl
@[simp] theorem takeAccess_tgt (rest : List HostAccess) (s : State) : (takeAccess rest s).tgt = s.tgt := rfl
@[simp] theorem takeAccess_ibufLen (rest : List HostAccess) (s : State) : (takeAccess rest s).ibufLen = s.ibufLen := rfl
@[simp] theorem takeAccess_obufLen (rest : List HostAccess) (s : State) : (takeAccess rest s).obufLen = s.obufLen := rfl
@[simp] theorem takeAccess_pbufLen (rest : List HostAccess) (s : State) : (takeAccess rest s).pbufLen = s.pbufLen := rfl
@[simp] theorem takeAccess_crcAcc (rest : List HostAccess) (s : State) : (takeAccess rest s).crcAcc = s.crcAcc := rfl
@[simp] theorem takeAccess_nrz (rest : List HostAccess) (s : State) : (takeAccess rest s).nrz = s.nrz := rfl
@[simp] theorem takeAccess_pm (rest : List HostAccess) (s : State) : (takeAccess rest s).pm = s.pm := rfl
@[simp] theorem takeAccess_ibuf (rest : List HostAccess) (s : State) : (takeAccess rest s).ibuf = s.ibuf := rfl
@[simp] theorem takeAccess_obuf (rest : List HostAccess) (s : State) : (takeAccess rest s).obuf = s.obuf := rfl
@[simp] theorem takeAccess_pbuf (rest : List HostAccess) (s : State) : (takeAccess rest s).pbuf = s.pbuf := rfl
@[simp] theorem takeAccess_resetEpoch (rest : List HostAccess) (s : State) : (takeAccess rest s).resetEpoch = s.resetEpoch := rfl
@[simp] theorem takeAccess_pending (rest : List HostAccess) (s : State) : (takeAccess rest s).pending = rest := rfl
@[simp] theorem takeAccess_reply (rest : List HostAccess) (s : State) : (takeAccess rest s).reply = none := rfl

/-! ### `answer` -/

@[simp] theorem answer_par (v : BitVec 64) (s : State) : (answer v s).par = s.par := rfl
@[simp] theorem answer_cmd (v : BitVec 64) (s : State) : (answer v s).cmd = s.cmd := rfl
@[simp] theorem answer_status (v : BitVec 64) (s : State) : (answer v s).status = s.status := rfl
@[simp] theorem answer_res (v : BitVec 64) (s : State) : (answer v s).res = s.res := rfl
@[simp] theorem answer_src (v : BitVec 64) (s : State) : (answer v s).src = s.src := rfl
@[simp] theorem answer_tgt (v : BitVec 64) (s : State) : (answer v s).tgt = s.tgt := rfl
@[simp] theorem answer_ibufLen (v : BitVec 64) (s : State) : (answer v s).ibufLen = s.ibufLen := rfl
@[simp] theorem answer_obufLen (v : BitVec 64) (s : State) : (answer v s).obufLen = s.obufLen := rfl
@[simp] theorem answer_pbufLen (v : BitVec 64) (s : State) : (answer v s).pbufLen = s.pbufLen := rfl
@[simp] theorem answer_crcAcc (v : BitVec 64) (s : State) : (answer v s).crcAcc = s.crcAcc := rfl
@[simp] theorem answer_nrz (v : BitVec 64) (s : State) : (answer v s).nrz = s.nrz := rfl
@[simp] theorem answer_pm (v : BitVec 64) (s : State) : (answer v s).pm = s.pm := rfl
@[simp] theorem answer_ibuf (v : BitVec 64) (s : State) : (answer v s).ibuf = s.ibuf := rfl
@[simp] theorem answer_obuf (v : BitVec 64) (s : State) : (answer v s).obuf = s.obuf := rfl
@[simp] theorem answer_pbuf (v : BitVec 64) (s : State) : (answer v s).pbuf = s.pbuf := rfl
@[simp] theorem answer_resetEpoch (v : BitVec 64) (s : State) : (answer v s).resetEpoch = s.resetEpoch := rfl
@[simp] theorem answer_pending (v : BitVec 64) (s : State) : (answer v s).pending = s.pending := rfl
@[simp] theorem answer_reply (v : BitVec 64) (s : State) : (answer v s).reply = some v := rfl

/-! ### The readers see only the fields they name -/

theorem ibufCell_congr {s t : State} (h : t.ibuf = s.ibuf) (he : t.resetEpoch = s.resetEpoch) (i : Nat) :
    ibufCell t i = ibufCell s i := by
  simp [ibufCell, h, he]

theorem obufCell_congr {s t : State} (h : t.obuf = s.obuf) (he : t.resetEpoch = s.resetEpoch) (i : Nat) :
    obufCell t i = obufCell s i := by
  simp [obufCell, h, he]

theorem pbufCell_congr {s t : State} (h : t.pbuf = s.pbuf) (he : t.resetEpoch = s.resetEpoch) (j : Nat) :
    pbufCell t j = pbufCell s j := by
  simp [pbufCell, h, he]

@[simp] theorem ibufSeq_length (s : State) : (ibufSeq s).length = s.ibufLen.toNat := by
  simp [ibufSeq]

/-- Position `i` of the sequence is cell `i`, below the length register. -/
theorem ibufSeq_getElem? (s : State) (i : Nat) :
    (ibufSeq s)[i]? = if i < s.ibufLen.toNat then some (ibufCell s i) else none := by
  by_cases h : i < s.ibufLen.toNat <;> simp [ibufSeq, h]

/-- The sequence depends on the cells below the length register alone. -/
theorem ibufSeq_congr {s t : State} (hl : t.ibufLen = s.ibufLen)
    (h : ∀ i < s.ibufLen.toNat, ibufCell t i = ibufCell s i) : ibufSeq t = ibufSeq s := by
  simp only [ibufSeq, hl]
  exact List.map_congr_left fun i hi => h i (by simpa using hi)

@[simp] theorem obufSeq_length (s : State) : (obufSeq s).length = s.obufLen.toNat := by
  simp [obufSeq]

/-- Position `i` of the sequence is cell `i`, below the length register. -/
theorem obufSeq_getElem? (s : State) (i : Nat) :
    (obufSeq s)[i]? = if i < s.obufLen.toNat then some (obufCell s i) else none := by
  by_cases h : i < s.obufLen.toNat <;> simp [obufSeq, h]

/-- The sequence depends on the cells below the length register alone. -/
theorem obufSeq_congr {s t : State} (hl : t.obufLen = s.obufLen)
    (h : ∀ i < s.obufLen.toNat, obufCell t i = obufCell s i) : obufSeq t = obufSeq s := by
  simp only [obufSeq, hl]
  exact List.map_congr_left fun i hi => h i (by simpa using hi)

@[simp] theorem pbufSeq_length (s : State) : (pbufSeq s).length = s.pbufLen.toNat := by
  simp [pbufSeq]

/-- Position `i` of the sequence is cell `i`, below the length register. -/
theorem pbufSeq_getElem? (s : State) (i : Nat) :
    (pbufSeq s)[i]? = if i < s.pbufLen.toNat then some (pbufCell s i) else none := by
  by_cases h : i < s.pbufLen.toNat <;> simp [pbufSeq, h]

/-- The sequence depends on the cells below the length register alone. -/
theorem pbufSeq_congr {s t : State} (hl : t.pbufLen = s.pbufLen)
    (h : ∀ i < s.pbufLen.toNat, pbufCell t i = pbufCell s i) : pbufSeq t = pbufSeq s := by
  simp only [pbufSeq, hl]
  exact List.map_congr_left fun i hi => h i (by simpa using hi)

end Sys2Proof.Machine
end

