-- ==== Sys2Proof/Laws/Commands.lean ====
section
/-! SUPPORT. What each shared operation can do, said once: the end of a command, the three buffer-filling operations, and the frame
each of them has. Later proofs cite these and unfold neither the operations nor the frames. -/

namespace Sys2Proof.Machine

/-! ### The end of a command -/

@[simp] theorem complete_ok (s u : State) : complete s (.ok u) = .next (succeed u) := rfl
@[simp] theorem complete_error (s : State) (e : Reason) : complete s (.error e) = .next (fail e s) := rfl
@[simp] theorem emitResult_error (s : State) (e : Reason) : emitResult s (.error e) = .next (fail e s) := rfl
@[simp] theorem emitResult_ok (s : State) (out : BitSeq) : emitResult s (.ok out) = complete s (emit s out) := rfl
@[simp] theorem deliverResult_error (s : State) (e : Reason) : deliverResult s (.error e) = .next (fail e s) := rfl
@[simp] theorem deliverResult_ok (s : State) (f : Frame) : deliverResult s (.ok f) = complete s (deliver s f) := rfl

/-- A command's end: it committed its writes, or failed with the state before it. -/
theorem complete_cases {s t : State} {r : Except Reason State} (h : complete s r = .next t) :
    (∃ u, r = .ok u ∧ t = succeed u) ∨ ∃ e, r = .error e ∧ t = fail e s := by
  cases r with
  | ok u => exact .inl ⟨u, rfl, by simpa using h.symm⟩
  | error e => exact .inr ⟨e, rfl, by simpa using h.symm⟩

/-- R180, R185: the STATUS of each failure, `REASON << 1`. -/
theorem statusFailure_eq (r : Reason) :
    statusFailure r = match r with
      | .shortInput => 0x0002#16
      | .noPreamble => 0x0004#16
      | .misaligned => 0x0006#16
      | .invalidCodeword => 0x0008#16
      | .shortFrame => 0x000A#16
      | .crcMismatch => 0x000C#16
      | .lengthMismatch => 0x000E#16
      | .addrOverflow => 0x0010#16
      | .payloadOverflow => 0x0012#16
      | .bufferOverflow => 0x0014#16
      | .illegalCmd => 0x0016#16 := by
  cases r <;> decide

/-- A failure never reads as success. -/
theorem statusFailure_ne_success (r : Reason) : statusFailure r ≠ statusSuccess := by cases r <;> decide

/-! ### Filling a buffer -/

theorem emit_fits {s : State} {out : BitSeq} (h : out.length ≤ s.par.obufCap) : emit s out =
    .ok { s with obuf := Memory.writeFrom s.obuf 0 out, obufLen := BitVec.ofNat 32 out.length } :=
  if_neg (Nat.not_lt.2 h)

theorem emit_overflows {s : State} {out : BitSeq} (h : s.par.obufCap < out.length) :
    emit s out = .error .bufferOverflow := if_pos h

theorem fillIbuf_fits {s : State} {x : BitSeq} (h : x.length ≤ s.par.ibufCap) : fillIbuf s x =
    .ok { s with ibuf := Memory.writeFrom s.ibuf 0 x, ibufLen := BitVec.ofNat 32 x.length } :=
  if_neg (Nat.not_lt.2 h)

theorem fillIbuf_overflows {s : State} {x : BitSeq} (h : s.par.ibufCap < x.length) :
    fillIbuf s x = .error .bufferOverflow := if_pos h

theorem fillPbuf_fits {s : State} {p : List Byte} (h : p.length ≤ s.par.pbufCap) : fillPbuf s p =
    .ok { s with pbuf := Memory.writeFrom s.pbuf 0 p, pbufLen := BitVec.ofNat 32 p.length } :=
  if_neg (Nat.not_lt.2 h)

theorem fillPbuf_overflows {s : State} {p : List Byte} (h : s.par.pbufCap < p.length) :
    fillPbuf s p = .error .bufferOverflow := if_pos h

theorem deliver_fits {s : State} {f : Frame} (h : f.payload.length ≤ s.par.pbufCap) : deliver s f =
    .ok { s with
      src := BitVec.ofNat 64 f.src
      tgt := BitVec.ofNat 64 f.tgt
      pbuf := Memory.writeFrom s.pbuf 0 f.payload
      pbufLen := BitVec.ofNat 32 f.payload.length } := fillPbuf_fits h

theorem deliver_overflows {s : State} {f : Frame} (h : s.par.pbufCap < f.payload.length) :
    deliver s f = .error .bufferOverflow := fillPbuf_overflows h

/-- What a cell of OBUF reads as after a run of writes from 0. -/
theorem obufCell_writeFrom (s : State) (out : BitSeq) (t : State)
    (h : t.obuf = Memory.writeFrom s.obuf 0 out) (he : t.resetEpoch = s.resetEpoch) (k : Nat) :
    obufCell t k = (out[k]?).getD (obufCell s k) := by
  rw [obufCell, h, he, Memory.get?_writeFrom_zero]
  cases out[k]? <;> rfl

/-- What a cell of IBUF reads as after a run of writes from 0. -/
theorem ibufCell_writeFrom (s : State) (x : BitSeq) (t : State)
    (h : t.ibuf = Memory.writeFrom s.ibuf 0 x) (he : t.resetEpoch = s.resetEpoch) (k : Nat) :
    ibufCell t k = (x[k]?).getD (ibufCell s k) := by
  rw [ibufCell, h, he, Memory.get?_writeFrom_zero]
  cases x[k]? <;> rfl

/-- What a cell of PBUF reads as after a run of writes from 0. -/
theorem pbufCell_writeFrom (s : State) (p : List Byte) (t : State)
    (h : t.pbuf = Memory.writeFrom s.pbuf 0 p) (he : t.resetEpoch = s.resetEpoch) (k : Nat) :
    pbufCell t k = (p[k]?).getD (pbufCell s k) := by
  rw [pbufCell, h, he, Memory.get?_writeFrom_zero]
  cases p[k]? <;> rfl

/-! ### Frames -/

/-- A frame of registers, one register at a time. -/
theorem keepsRegs_of {changed : List Nat} {s t : State} (h0 : 0 ∉ changed → t.cmd = s.cmd)
    (h1 : 1 ∉ changed → t.status = s.status) (h2 : 2 ∉ changed → t.res = s.res) (h3 : 3 ∉ changed → t.src = s.src)
    (h4 : 4 ∉ changed → t.tgt = s.tgt) (h5 : 5 ∉ changed → t.ibufLen = s.ibufLen)
    (h6 : 6 ∉ changed → t.obufLen = s.obufLen) (h7 : 7 ∉ changed → t.pbufLen = s.pbufLen)
    (h8 : 8 ∉ changed → t.crcAcc = s.crcAcc) (h9 : 9 ∉ changed → t.nrz = s.nrz)
    (h10 : 10 ∉ changed → t.pm = s.pm) : keepsRegs changed s t := fun r hr => by
  unfold readReg
  split
  · rw [h0 hr]
  · rw [h1 hr]
  · rw [h2 hr]
  · exact h3 hr
  · exact h4 hr
  · rw [h5 hr]
  · rw [h6 hr]
  · rw [h7 hr]
  · rw [h8 hr]
  · rw [h9 hr]
  · rw [h10 hr]
  · rfl

/-- A change of the scalar registers RES, CRC_ACC, NRZ, PM and STATUS alone. -/
theorem changesOnlyRegs_scalar (s : State) (changed : List Nat) (h1 : 1 ∈ changed) {status : BitVec 16}
    {res acc nrz pm : BitVec 32} (h2 : 2 ∉ changed → res = s.res) (h8 : 8 ∉ changed → acc = s.crcAcc)
    (h9 : 9 ∉ changed → nrz = s.nrz) (h10 : 10 ∉ changed → pm = s.pm) :
    changesOnlyRegs changed s { s with res := res, crcAcc := acc, nrz := nrz, pm := pm, status := status } :=
  ⟨keepsRegs_of (fun _ => rfl) (fun h => absurd h1 h) h2 (fun _ => rfl) (fun _ => rfl) (fun _ => rfl) (fun _ => rfl)
    (fun _ => rfl) h8 h9 h10, fun _ => rfl, fun _ => rfl, fun _ => rfl, rfl, rfl, rfl, rfl⟩

/-- R56: a sequence that fits is emitted: the command answers a next state, and that state is as `emitted` says. -/
theorem emitResult_emits {s : State} {out : BitSeq} (h : out.length ≤ s.par.obufCap) (h32 : out.length < 2 ^ 32) :
    ∃ t, emitResult s (.ok out) = .next t ∧ emitted s t out := by
  refine ⟨_, by rw [emitResult_ok, emit_fits h, complete_ok], ?_⟩
  refine ⟨fun k => by refine obufCell_writeFrom s out _ ?_ ?_ k <;> rfl, ?_, rfl, ?_, fun _ => rfl, fun _ => rfl, rfl, rfl, rfl, rfl⟩
  · simpa using h32
  · exact keepsRegs_of (fun _ => rfl) (by simp) (fun _ => rfl) (fun _ => rfl) (fun _ => rfl) (fun _ => rfl) (by simp)
      (fun _ => rfl) (fun _ => rfl) (fun _ => rfl) (fun _ => rfl)

/-- R56: a sequence that does not fit fails with BUFFER_OVERFLOW. -/
theorem emitResult_overflows {s : State} {out : BitSeq} (h : s.par.obufCap < out.length) :
    emitResult s (.ok out) = .next { s with status := 0x0014#16 } := by
  rw [emitResult_ok, emit_overflows h, complete_error, fail, statusFailure_eq]

/-- OBUF_SEQ after an emission is what was emitted. -/
theorem obufSeq_of_emitted {s t : State} {out : BitSeq} (h : emitted s t out) : obufSeq t = out := by
  refine List.ext_getElem? fun i => ?_
  rw [obufSeq_getElem?, h.2.1, h.1]
  by_cases hi : i < out.length
  · simp [hi]
  · simp [hi]

/-- R155, R157: a frame whose payload fits is delivered. -/
theorem deliverResult_delivers {s : State} {f : Frame} (h : f.payload.length ≤ s.par.pbufCap)
    (h32 : f.payload.length < 2 ^ 32) (hs : f.src < 2 ^ 64) (ht : f.tgt < 2 ^ 64) :
    ∃ t, deliverResult s (.ok f) = .next t ∧ delivered s t f.src f.tgt f.payload := by
  refine ⟨_, by rw [deliverResult_ok, deliver_fits h, complete_ok], ?_⟩
  refine ⟨?_, ?_, ?_, fun j => by refine pbufCell_writeFrom s f.payload _ ?_ ?_ j <;> rfl, rfl, ?_, fun _ => rfl, fun _ => rfl, rfl, rfl, rfl, rfl⟩
  · simpa using hs
  · simpa using ht
  · simpa using h32
  · exact keepsRegs_of (fun _ => rfl) (by simp) (fun _ => rfl) (by simp) (by simp) (fun _ => rfl) (fun _ => rfl)
      (by simp) (fun _ => rfl) (fun _ => rfl) (fun _ => rfl)

/-- R155, R157: a frame whose payload does not fit fails with BUFFER_OVERFLOW. -/
theorem deliverResult_overflows {s : State} {f : Frame} (h : s.par.pbufCap < f.payload.length) :
    deliverResult s (.ok f) = .next { s with status := 0x0014#16 } := by
  rw [deliverResult_ok, deliver_overflows h, complete_error, fail, statusFailure_eq]

/-- PBUF_SEQ after a delivery is the payload. -/
theorem pbufSeq_of_delivered {s t : State} {src tgt : Nat} {p : List Byte} (h : delivered s t src tgt p) :
    pbufSeq t = p := by
  refine List.ext_getElem? fun i => ?_
  rw [pbufSeq_getElem?, h.2.2.1, h.2.2.2.1]
  by_cases hi : i < p.length
  · simp [hi]
  · simp [hi]

/-- R171: XFER when OBUF_LEN fits: what it leaves. -/
theorem execXfer_fits {s : State} (h : s.obufLen.toNat ≤ s.par.ibufCap) :
    execXfer s = .next { s with
      ibuf := Memory.writeFrom s.ibuf 0 (obufSeq s)
      ibufLen := s.obufLen
      status := statusSuccess } := by
  rw [execXfer, fillIbuf_fits (by simpa using h), complete_ok, succeed, obufSeq_length, BitVec.ofNat_toNat, BitVec.setWidth_eq]

/-- IBUF_SEQ after a fill is what was filled in. -/
theorem ibufSeq_writeFrom {s t : State} {x : BitSeq} (h : t.ibuf = Memory.writeFrom s.ibuf 0 x)
    (he : t.resetEpoch = s.resetEpoch) (hl : t.ibufLen.toNat = x.length) : ibufSeq t = x := by
  refine List.ext_getElem? fun i => ?_
  rw [ibufSeq_getElem?, hl, ibufCell_writeFrom s x t h he]
  by_cases hi : i < x.length
  · simp [hi]
  · simp [hi]

end Sys2Proof.Machine
end

