-- ==== Sys2Proof/Laws/Decode.lean ====
section
/-! SUPPORT. The fields of a command word as numbers, and the operand classes as bounds (spec/30_encoding.md R92, R93). -/

namespace Sys2Proof

/-- R92: OPC is the low 8 bits. -/
theorem ofWord_opc_toNat (w : Word) : (CmdWord.ofWord w).opc.toNat = w.toNat % 256 := by
  simp [CmdWord.ofWord, BitVec.extractLsb'_toNat]

/-- R92: IMM8 is the next 8 bits. -/
theorem ofWord_imm8_toNat (w : Word) : (CmdWord.ofWord w).imm8.toNat = w.toNat / 256 % 256 := by
  simp [CmdWord.ofWord, BitVec.extractLsb'_toNat, Nat.shiftRight_eq_div_pow]

/-- R92: RSVD is the rest. -/
theorem ofWord_rsvd_toNat (w : Word) : (CmdWord.ofWord w).rsvd.toNat = w.toNat / 65536 := by
  have := w.isLt
  simp [CmdWord.ofWord, BitVec.extractLsb'_toNat, Nat.shiftRight_eq_div_pow]
  omega

/-- R93, class N. -/
theorem immLegal_n : ∀ imm : BitVec 8, OpClass.n.immLegal imm = decide (imm.toNat < 1) := by decide

/-- R93, class S. -/
theorem immLegal_s : ∀ imm : BitVec 8, OpClass.s.immLegal imm = decide (imm.toNat < 2) := by decide

/-- R93, class G. -/
theorem immLegal_g : ∀ imm : BitVec 8, OpClass.g.immLegal imm = decide (imm.toNat < 16) := by decide

/-- R93, class C. -/
theorem immLegal_c : ∀ imm : BitVec 8, OpClass.c.immLegal imm = decide (imm.toNat < 32) := by decide

end Sys2Proof
end

