-- ==== Sys2Proof/Laws/Exec.lean ====
section
/-! SUPPORT. What one command can do to the state, said once (`exec_cases`), and the laws of the packed registers NRZ and PM. -/

namespace Sys2Proof.Machine

/-! ### The packed registers -/

@[simp] theorem nrzLvl_nrzWord (lvl prev : Bool) : nrzLvl (nrzWord lvl prev) = lvl := by
  cases lvl <;> cases prev <;> decide

@[simp] theorem nrzPrev_nrzWord (lvl prev : Bool) : nrzPrev (nrzWord lvl prev) = prev := by
  cases lvl <;> cases prev <;> decide

theorem nrzLegal_nrzWord (lvl prev : Bool) : nrzLegal (nrzWord lvl prev) := by
  cases lvl <;> cases prev <;> decide

@[simp] theorem bitRes_eq (b : Bool) : bitRes b = if b then 1#32 else 0#32 := by cases b <;> decide

@[simp] theorem pmCnt_pmWord (cnt : BitVec 7) (st : BitVec 2) : pmCnt (pmWord cnt st) = cnt := by
  unfold pmCnt pmWord
  ext i hi
  simp only [BitVec.getElem_extractLsb', BitVec.getLsbD_append]
  rw [if_pos (by omega)]
  simp [BitVec.getLsbD_eq_getElem, hi]

@[simp] theorem pmSt_pmWord (cnt : BitVec 7) (st : BitVec 2) : pmSt (pmWord cnt st) = st := by
  unfold pmSt pmWord
  ext i hi
  simp only [BitVec.getElem_extractLsb', BitVec.getLsbD_append]
  rw [if_neg (by omega), if_neg (by omega), if_pos (by omega), show 8 + i - 7 - 1 = i by omega,
    BitVec.getLsbD_eq_getElem hi]

/-- R36: a packed PM reads 0 in its reserved bits, so it is legal when its fields are. -/
theorem pmLegal_pmWord {cnt : BitVec 7} {st : BitVec 2} (hc : cnt.toNat ≤ 64) (hs : st ≠ 3#2)
    (h : st = pmMatched ↔ cnt.toNat = 64) : pmLegal (pmWord cnt st) := by
  refine ⟨?_, ?_, by simpa using hc, by simpa using hs, by simpa using h⟩
  · unfold pmWord
    simp only [BitVec.getLsbD_append]
    rw [if_neg (by omega), if_pos (by omega)]
    simp
  · have hcnt := cnt.isLt
    have hst := st.isLt
    simp only [pmWord, BitVec.toNat_append, BitVec.toNat_ofNat, Nat.zero_mod, Nat.or_zero, Nat.shiftLeft_eq, Nat.zero_mul]
    rw [Nat.zero_or]
    exact Nat.or_lt_two_pow (by omega) (by omega)

/-- R135: the matcher's next register is legal when the present one is. -/
theorem pmLegal_pmNext {pm : BitVec 32} (h : pmLegal pm) (b : Bool) : pmLegal (pmNext pm b) := by
  obtain ⟨-, -, hcnt, -, hiff⟩ := id h
  unfold pmNext
  split
  · rename_i hst
    have hne : (pmCnt pm).toNat ≠ 64 := fun he => absurd (hiff.2 he) (by rw [hst]; decide)
    split
    · have hc : (pmCnt pm + 1).toNat = (pmCnt pm).toNat + 1 := by
        rw [BitVec.toNat_add, show (1 : BitVec 7).toNat = 1 from rfl, Nat.mod_eq_of_lt (by omega)]
      have h64 : pmCnt pm + 1 = 64 ↔ (pmCnt pm + 1).toNat = 64 := BitVec.toNat_inj.symm
      refine pmLegal_pmWord (by omega) (by split <;> decide) ?_
      split
      · rename_i he
        simpa using h64.1 he
      · rename_i he
        exact ⟨fun hx => absurd hx (by decide), fun hx => absurd (h64.2 hx) he⟩
    · exact pmLegal_pmWord hcnt (by decide) ⟨fun hx => absurd hx (by decide), fun hx => absurd hx hne⟩
  · exact h

/-! ### What a command can do -/

/-- The commands that emit a bit sequence (R32, R208). -/
def isEmitter : Instr → Bool
  | .lcExpand | .lcContract | .nrziEnc _ | .nrziDec _ | .preGen | .frameMarshal | .frameEnc => true
  | _ => false

/-- The commands that write RES (R28). -/
def writesRes : Instr → Bool
  | .lcExp4 _ | .lcCon5 _ | .nrziEbit _ | .nrziDbit _ | .preMatch | .pmBit _ | .crcFinal | .crc32 => true
  | .nop | .lcExpand | .lcContract | .nrziSeed _ | .nrziEnc _ | .nrziDec _ | .preGen | .pmReset => false
  | .crcInit | .crcByte _ | .frameMarshal | .frameSplit | .frameEnc | .frameDec | .xfer => false

/-- Everything a command can do. Either it fails and only STATUS changes; or it succeeds, and then it has written scalar registers alone
(each only if the command is of its unit), or emitted a sequence that fits, or copied OBUF_SEQ into IBUF, or delivered a frame that
fits. -/
theorem exec_cases {i : Instr} {s t : State} (h : exec i s = .next t) :
    (∃ e, t = fail e s) ∨
    (∃ res acc nrz pm, t = { s with res := res, crcAcc := acc, nrz := nrz, pm := pm, status := statusSuccess } ∧
      (res = s.res ∨ writesRes i = true) ∧ (acc = s.crcAcc ∨ i = .crcInit ∨ ∃ y, i = .crcByte y) ∧
      (nrz = s.nrz ∨ nrzLegal nrz ∧ ((∃ b, i = .nrziSeed b) ∨ (∃ b, i = .nrziEbit b) ∨ ∃ b, i = .nrziDbit b)) ∧
      (pm = s.pm ∨ (pmLegal s.pm → pmLegal pm) ∧ (i = .pmReset ∨ ∃ b, i = .pmBit b))) ∨
    (∃ out, isEmitter i = true ∧ out.length ≤ s.par.obufCap ∧ t = { s with
      obuf := Memory.writeFrom s.obuf 0 out, obufLen := BitVec.ofNat 32 out.length, status := statusSuccess }) ∨
    (i = .xfer ∧ s.obufLen.toNat ≤ s.par.ibufCap ∧ t = { s with
      ibuf := Memory.writeFrom s.ibuf 0 (obufSeq s), ibufLen := s.obufLen, status := statusSuccess }) ∨
    (∃ f : Frame, (i = .frameSplit ∨ i = .frameDec) ∧ f.payload.length ≤ s.par.pbufCap ∧ t = { s with
      src := BitVec.ofNat 64 f.src
      tgt := BitVec.ofNat 64 f.tgt
      pbuf := Memory.writeFrom s.pbuf 0 f.payload
      pbufLen := BitVec.ofNat 32 f.payload.length
      status := statusSuccess }) := by
  have scalar (res acc nrz pm : BitVec 32) (hu : Host.Outcome.next (succeed { s with
        res := res, crcAcc := acc, nrz := nrz, pm := pm }) = (.next t : Host.Outcome State Fault Refusal)) :
      t = { s with res := res, crcAcc := acc, nrz := nrz, pm := pm, status := statusSuccess } := by
    injection hu with hu
    exact hu.symm
  have emits (r : Except Reason BitSeq) (hu : emitResult s r = .next t) (hi : isEmitter i = true) :
      (∃ e, t = fail e s) ∨ (∃ out, isEmitter i = true ∧ out.length ≤ s.par.obufCap ∧ t = { s with
        obuf := Memory.writeFrom s.obuf 0 out, obufLen := BitVec.ofNat 32 out.length, status := statusSuccess }) := by
    cases r with
    | error e => exact .inl ⟨e, by simpa using hu.symm⟩
    | ok out =>
      rcases Nat.lt_or_ge s.par.obufCap out.length with hlt | hge
      · rw [emitResult_ok, emit_overflows hlt] at hu
        exact .inl ⟨_, by simpa using hu.symm⟩
      · rw [emitResult_ok, emit_fits hge] at hu
        exact .inr ⟨out, hi, hge, by simpa [succeed] using hu.symm⟩
  have delivers (r : Except Reason Frame) (hu : deliverResult s r = .next t) (hi : i = .frameSplit ∨ i = .frameDec) :
      (∃ e, t = fail e s) ∨ (∃ f : Frame, (i = .frameSplit ∨ i = .frameDec) ∧ f.payload.length ≤ s.par.pbufCap ∧ t = { s with
        src := BitVec.ofNat 64 f.src
        tgt := BitVec.ofNat 64 f.tgt
        pbuf := Memory.writeFrom s.pbuf 0 f.payload
        pbufLen := BitVec.ofNat 32 f.payload.length
        status := statusSuccess }) := by
    cases r with
    | error e => exact .inl ⟨e, by simpa using hu.symm⟩
    | ok f =>
      rcases Nat.lt_or_ge s.par.pbufCap f.payload.length with hlt | hge
      · rw [deliverResult_ok, deliver_overflows hlt] at hu
        exact .inl ⟨_, by simpa using hu.symm⟩
      · rw [deliverResult_ok, deliver_fits hge] at hu
        exact .inr ⟨f, hi, hge, by simpa [succeed] using hu.symm⟩
  cases i with
  | nop => exact .inr (.inl ⟨_, _, _, _, scalar s.res s.crcAcc s.nrz s.pm h, .inl rfl, .inl rfl, .inl rfl, .inl rfl⟩)
  | lcExp4 g => exact .inr (.inl ⟨_, _, _, _, scalar _ s.crcAcc s.nrz s.pm h, .inr rfl, .inl rfl, .inl rfl, .inl rfl⟩)
  | lcCon5 c =>
    simp only [exec, execLcCon5] at h
    split at h
    · exact .inr (.inl ⟨_, _, _, _, scalar _ s.crcAcc s.nrz s.pm h, .inr rfl, .inl rfl, .inl rfl, .inl rfl⟩)
    · exact .inl ⟨_, by simpa using h.symm⟩
  | lcExpand => exact (emits _ h rfl).imp id fun h => .inr (.inl h)
  | lcContract => exact (emits _ h rfl).imp id fun h => .inr (.inl h)
  | nrziSeed b =>
    exact .inr (.inl ⟨_, _, _, _, scalar s.res s.crcAcc _ s.pm h, .inl rfl, .inl rfl, .inr ⟨nrzLegal_nrzWord _ _, .inl ⟨b, rfl⟩⟩, .inl rfl⟩)
  | nrziEbit b =>
    exact .inr (.inl ⟨_, _, _, _, scalar _ s.crcAcc _ s.pm h, .inr rfl, .inl rfl,
      .inr ⟨nrzLegal_nrzWord _ _, .inr (.inl ⟨b, rfl⟩)⟩, .inl rfl⟩)
  | nrziDbit b =>
    exact .inr (.inl ⟨_, _, _, _, scalar _ s.crcAcc _ s.pm h, .inr rfl, .inl rfl,
      .inr ⟨nrzLegal_nrzWord _ _, .inr (.inr ⟨b, rfl⟩)⟩, .inl rfl⟩)
  | nrziEnc b => exact (emits (.ok (toDifferential (ibufSeq s) b)) h rfl).imp id fun h => .inr (.inl h)
  | nrziDec b => exact (emits (.ok (fromDifferential (ibufSeq s) b)) h rfl).imp id fun h => .inr (.inl h)
  | preGen => exact (emits (.ok preRom) h rfl).imp id fun h => .inr (.inl h)
  | preMatch => exact .inr (.inl ⟨_, _, _, _, scalar _ s.crcAcc s.nrz s.pm h, .inr rfl, .inl rfl, .inl rfl, .inl rfl⟩)
  | pmReset =>
    exact .inr (.inl ⟨_, _, _, _, scalar s.res s.crcAcc s.nrz _ h, .inl rfl, .inl rfl, .inl rfl,
      .inr ⟨fun _ => pmLegal_pmWord (by decide) (by decide) (by decide), .inl rfl⟩⟩)
  | pmBit b =>
    exact .inr (.inl ⟨_, _, _, _, scalar _ s.crcAcc s.nrz _ h, .inr rfl, .inl rfl, .inl rfl,
      .inr ⟨fun hp => pmLegal_pmNext hp b, .inr ⟨b, rfl⟩⟩⟩)
  | crcInit => exact .inr (.inl ⟨_, _, _, _, scalar s.res _ s.nrz s.pm h, .inl rfl, .inr (.inl rfl), .inl rfl, .inl rfl⟩)
  | crcByte y => exact .inr (.inl ⟨_, _, _, _, scalar s.res _ s.nrz s.pm h, .inl rfl, .inr (.inr ⟨y, rfl⟩), .inl rfl, .inl rfl⟩)
  | crcFinal => exact .inr (.inl ⟨_, _, _, _, scalar _ s.crcAcc s.nrz s.pm h, .inr rfl, .inl rfl, .inl rfl, .inl rfl⟩)
  | crc32 => exact .inr (.inl ⟨_, _, _, _, scalar _ s.crcAcc s.nrz s.pm h, .inr rfl, .inl rfl, .inl rfl, .inl rfl⟩)
  | frameMarshal => exact (emits _ h rfl).imp id fun h => .inr (.inl h)
  | frameSplit => exact (delivers _ h (.inl rfl)).imp id fun h => .inr (.inr (.inr h))
  | frameEnc => exact (emits _ h rfl).imp id fun h => .inr (.inl h)
  | frameDec => exact (delivers _ h (.inr rfl)).imp id fun h => .inr (.inr (.inr h))
  | xfer =>
    rcases Nat.lt_or_ge s.par.ibufCap s.obufLen.toNat with hlt | hge
    · rw [exec, execXfer, fillIbuf_overflows (by simpa using hlt)] at h
      exact .inl ⟨_, by simpa using h.symm⟩
    · rw [exec, execXfer_fits hge] at h
      exact .inr (.inr (.inr (.inl ⟨rfl, hge, by simpa using h.symm⟩)))

end Sys2Proof.Machine
end

