-- ==== Sys2Proof/Laws/PerInstr.lean ====
section
/-! SUPPORT. The per-instruction family EncodeLegal: the word a command is encoded as passes the three checks of
WellFormed.lean (spec/30_encoding.md R93 to R95). -/

namespace Sys2Proof.Laws.EncodeLegal

/-- R95: the command's word is legal. -/
def Statement (i : Instr) : Prop := (CmdWord.ofWord (encode i)).wellFormed = true

theorem nop : Statement .nop := rfl
theorem lcExp4 (g : Group) : Statement (.lcExp4 g) := by
  revert g
  unfold Statement
  decide
theorem lcCon5 (c : Codeword) : Statement (.lcCon5 c) := by
  revert c
  unfold Statement
  decide
theorem lcExpand : Statement .lcExpand := rfl
theorem lcContract : Statement .lcContract := rfl
theorem nrziSeed (b : Bool) : Statement (.nrziSeed b) := by cases b <;> rfl
theorem nrziEbit (b : Bool) : Statement (.nrziEbit b) := by cases b <;> rfl
theorem nrziDbit (b : Bool) : Statement (.nrziDbit b) := by cases b <;> rfl
theorem nrziEnc (b : Bool) : Statement (.nrziEnc b) := by cases b <;> rfl
theorem nrziDec (b : Bool) : Statement (.nrziDec b) := by cases b <;> rfl
theorem preGen : Statement .preGen := rfl
theorem preMatch : Statement .preMatch := rfl
theorem pmReset : Statement .pmReset := rfl
theorem pmBit (b : Bool) : Statement (.pmBit b) := by cases b <;> rfl
theorem crcInit : Statement .crcInit := rfl
theorem crcByte (y : Byte) : Statement (.crcByte y) := by
  revert y
  unfold Statement
  decide
theorem crcFinal : Statement .crcFinal := rfl
theorem crc32 : Statement .crc32 := rfl
theorem frameMarshal : Statement .frameMarshal := rfl
theorem frameSplit : Statement .frameSplit := rfl
theorem frameEnc : Statement .frameEnc := rfl
theorem frameDec : Statement .frameDec := rfl
theorem xfer : Statement .xfer := rfl

end Sys2Proof.Laws.EncodeLegal
end

