-- ==== Sys2Proof/Tests/Slice0.lean ====
section
/-! SUPPORT. The model's own tests. Expected values come from spec/95_test_vectors.md (the vector's name stands with each test)
and from the encoding table of spec/30_encoding.md R94; the witnesses show that the premises of the obligations can be met. -/

set_option Elab.async false

namespace Sys2Proof.Tests

open Sys2Proof Sys2Proof.Machine

/-! ### Helpers -/

/-- A bit sequence written out from position 0. -/
def bits (l : List Nat) : BitSeq := l.map (· == 1)

/-- A hex constant of `n` bits as a sequence (R20: first digit first, most significant bit first). -/
def hex (n v : Nat) : BitSeq := msbBits n v

/-- `s` with `x` in IBUF. -/
def withIbuf (x : BitSeq) (s : State) : State :=
  { s with ibuf := Memory.writeFrom [] 0 x, ibufLen := BitVec.ofNat 32 x.length }

/-- `s` with `x` in OBUF. -/
def withObuf (x : BitSeq) (s : State) : State :=
  { s with obuf := Memory.writeFrom [] 0 x, obufLen := BitVec.ofNat 32 x.length }

/-- `s` with the addresses and the payload of a frame. -/
def withFrame (src tgt : Nat) (p : List Byte) (s : State) : State :=
  { s with
    src := BitVec.ofNat 64 src
    tgt := BitVec.ofNat 64 tgt
    pbuf := Memory.writeFrom [] 0 p
    pbufLen := BitVec.ofNat 32 p.length }

/-- `s` under other capacities. -/
def withCaps (i o p : Nat) (s : State) : State :=
  { s with par := { s.par with ibufCap := i, obufCap := o, pbufCap := p } }

/-- `s` with one host access to make. -/
def withAccess (a : HostAccess) (s : State) : State := { s with pending := [a] }

/-- What `f` reads in the state after one command. -/
def after {α : Type} (i : Instr) (s : State) (f : State → α) : Option α :=
  match exec i s with
  | .next t => some (f t)
  | _ => none

/-- What `f` reads in the state after one step. -/
def stepped {α : Type} (s : State) (f : State → α) : Option α :=
  match step s with
  | .next t => some (f t)
  | _ => none

/-- The payload "ab" of V-F1. -/
def ab : List Byte := [0x61#8, 0x62#8]

/-- V-F1: the raw frame. -/
def raw1 : BitSeq := hex 160 0x00000000000200000000000100026162556955D8

/-- V-F1: the transmittable frame. -/
def frame1 : BitSeq := hex 264 0xAAAAAAAAAAAAAAAB5AD6B5AD6B5AD675AD6B5AD6B5AD715AD67A39679369D935A3

/-- The preamble, S1. -/
def pre : BitSeq := hex 64 0xAAAAAAAAAAAAAAAB

/-! ### WellFormed: each check refuses an ill-formed word or parameter set -/

theorem test_wf_refuses_rsvd : (CmdWord.mk 0x00#8 0#8 1#16).wellFormed = false ∧ (CmdWord.mk 0x00#8 0#8 1#16).rsvdOk = false := by decide +kernel
theorem test_wf_refuses_opc : (CmdWord.mk 0x05#8 0#8 0#16).opcOk = false ∧ (CmdWord.mk 0xFF#8 0#8 0#16).wellFormed = false := by decide +kernel
theorem test_wf_refuses_imm_n : (CmdWord.mk 0x23#8 1#8 0#16).immOk = false ∧ (CmdWord.mk 0x23#8 1#8 0#16).wellFormed = false := by decide +kernel
theorem test_wf_refuses_imm_s : (CmdWord.mk 0x08#8 2#8 0#16).immOk = false ∧ (CmdWord.mk 0x08#8 2#8 0#16).wellFormed = false := by decide +kernel
theorem test_wf_refuses_imm_g : (CmdWord.mk 0x01#8 0x10#8 0#16).immOk = false ∧ (CmdWord.mk 0x01#8 0x10#8 0#16).wellFormed = false := by decide +kernel
theorem test_wf_refuses_imm_c : (CmdWord.mk 0x02#8 0x20#8 0#16).immOk = false ∧ (CmdWord.mk 0x02#8 0x20#8 0#16).wellFormed = false := by decide +kernel
theorem test_wf_accepts_imm_y : (CmdWord.mk 0x19#8 0xFF#8 0#16).wellFormed = true := by decide +kernel
theorem test_params_refuse_repeated_codeword :
    ¬ ({ Config.defaults with lcTable := Vector.replicate 16 0#5 } : Config.Params).ok := by decide +kernel
theorem test_params_refuse_small_caps : ¬ ({ Config.defaults with ibufCap := 143 } : Config.Params).ok ∧
    ¬ ({ Config.defaults with obufCap := 63 } : Config.Params).ok := by decide +kernel

/-! ### Decoding: every command's word, written out from R92 to R94 (RSVD, IMM8, OPC) -/

theorem test_decode_control : decode 0b0000000000000000_00000000_00000000#32 = .ok .nop ∧
    decode 0b0000000000000000_00000000_00101000#32 = .ok .xfer := by decide +kernel
theorem test_decode_lcu : decode 0b0000000000000000_00001101_00000001#32 = .ok (.lcExp4 13#4) ∧
    decode 0b0000000000000000_00010010_00000010#32 = .ok (.lcCon5 18#5) ∧
    decode 0b0000000000000000_00000000_00000011#32 = .ok .lcExpand ∧
    decode 0b0000000000000000_00000000_00000100#32 = .ok .lcContract := by decide +kernel
theorem test_decode_nrzu : decode 0b0000000000000000_00000001_00001000#32 = .ok (.nrziSeed true) ∧
    decode 0b0000000000000000_00000001_00001001#32 = .ok (.nrziEbit true) ∧
    decode 0b0000000000000000_00000000_00001010#32 = .ok (.nrziDbit false) ∧
    decode 0b0000000000000000_00000000_00001011#32 = .ok (.nrziEnc false) ∧
    decode 0b0000000000000000_00000001_00001100#32 = .ok (.nrziDec true) := by decide +kernel
theorem test_decode_pru : decode 0b0000000000000000_00000000_00010000#32 = .ok .preGen ∧
    decode 0b0000000000000000_00000000_00010001#32 = .ok .preMatch ∧
    decode 0b0000000000000000_00000000_00010010#32 = .ok .pmReset ∧
    decode 0b0000000000000000_00000001_00010011#32 = .ok (.pmBit true) := by decide +kernel
theorem test_decode_crcu : decode 0b0000000000000000_00000000_00011000#32 = .ok .crcInit ∧
    decode 0b0000000000000000_01100001_00011001#32 = .ok (.crcByte 0x61#8) ∧
    decode 0b0000000000000000_00000000_00011010#32 = .ok .crcFinal ∧
    decode 0b0000000000000000_00000000_00011011#32 = .ok .crc32 := by decide +kernel
theorem test_decode_fru : decode 0b0000000000000000_00000000_00100000#32 = .ok .frameMarshal ∧
    decode 0b0000000000000000_00000000_00100001#32 = .ok .frameSplit ∧
    decode 0b0000000000000000_00000000_00100010#32 = .ok .frameEnc ∧
    decode 0b0000000000000000_00000000_00100011#32 = .ok .frameDec := by decide +kernel

/-- V-X2: the illegal words, each for its reason. -/
theorem test_decode_illegal : decode 0x00000005#32 = .error .opcUnassigned ∧ decode 0x000000FF#32 = .error .opcUnassigned ∧
    decode 0x00010000#32 = .error .rsvdNonzero ∧ decode 0x00000123#32 = .error .immOutsideClass := by decide +kernel

/-- The host's table words: V-L1's LC_EXP4 7, and a word with a bit above the row's 16. -/
theorem test_decode_table_word : decodeTableWord 32 0x00000701 = some (.lcExp4 7#4) ∧ decodeTableWord 16 0x20701 = some (.lcExp4 7#4) := by decide +kernel

/-- A table word placed for the next step is the command that step runs (V-L1). -/
theorem test_with_fetch_word : stepped (State.reset.withFetchWord 32 0x00000701) (fun t => (t.cmd, t.status, t.res)) =
    some (0x00000701#32, 0x0001#16, 0x0F#32) := by decide +kernel

/-! ### One command each -/

/-- V-X1. -/
theorem test_nop : after .nop { State.reset with status := 0x0008#16 } id = some { State.reset with status := 0x0001#16 } := by decide +kernel
/-- V-L1. -/
theorem test_lc_exp4 : after (.lcExp4 0x0#4) State.reset (·.res) = some 0x1E#32 ∧ after (.lcExp4 0xC#4) State.reset (·.res) = some 0x1A#32 := by decide +kernel
/-- V-L2. -/
theorem test_lc_con5 : after (.lcCon5 0x1E#5) { State.reset with res := 9#32 } (fun t => (t.res, t.status)) = some (0#32, 0x0001#16) ∧
    after (.lcCon5 0x16#5) State.reset (·.res) = some 10#32 := by decide +kernel
/-- V-L2. -/
theorem test_lc_con5_invalid : after (.lcCon5 0x18#5) { State.reset with res := 9#32 } (fun t => (t.res, t.status)) = some (9#32, 0x0008#16) := by decide +kernel
/-- V-L3. -/
theorem test_lc_expand : after .lcExpand (withIbuf (bits [0, 0, 0, 1, 0, 0, 1, 0]) State.reset) obufSeq =
    some (bits [0, 1, 0, 0, 1, 1, 0, 1, 0, 0]) := by decide +kernel
/-- V-L4. -/
theorem test_lc_contract : after .lcContract (withIbuf (hex 20 0x725D4) State.reset) obufSeq = some (hex 16 0x6162) := by decide +kernel
/-- V-L4: alignment is checked before validity. -/
theorem test_lc_contract_order : after .lcContract (withIbuf (bits [0, 0, 0, 0, 0, 0]) State.reset) (·.status) = some 0x0006#16 ∧
    after .lcContract (withIbuf (bits [1, 1, 1, 1, 0, 0, 0, 0, 0, 0]) State.reset) (fun t => (t.status, t.obufLen)) =
      some (0x0008#16, 0#32) := by decide +kernel
/-- V-N3. -/
theorem test_nrzi_seed : after (.nrziSeed false) State.reset (fun t => (t.nrz, t.res)) = some (0#32, 0#32) := by decide +kernel
/-- V-N3: the steps NRZI_EBIT 1 from 0x3 and NRZI_EBIT 1 from 0x2. -/
theorem test_nrzi_ebit : after (.nrziEbit true) State.reset (fun t => (t.res, t.nrz)) = some (0#32, 2#32) ∧
    after (.nrziEbit true) { State.reset with nrz := 2#32 } (fun t => (t.res, t.nrz)) = some (1#32, 3#32) := by decide +kernel
/-- V-N3: the steps NRZI_DBIT 0 from 0x2 and NRZI_DBIT 1 from 0x0. -/
theorem test_nrzi_dbit : after (.nrziDbit false) { State.reset with nrz := 2#32 } (fun t => (t.res, t.nrz)) = some (1#32, 0#32) ∧
    after (.nrziDbit true) { State.reset with nrz := 0#32 } (fun t => (t.res, t.nrz)) = some (1#32, 2#32) := by decide +kernel
/-- V-N1. -/
theorem test_nrzi_enc : after (.nrziEnc true) (withIbuf (bits [1, 0, 1, 1]) State.reset) obufSeq = some (bits [0, 0, 1, 0]) ∧
    after (.nrziEnc false) (withIbuf (bits [1, 0, 1, 1]) State.reset) obufSeq = some (bits [1, 1, 0, 1]) := by decide +kernel
/-- V-N2. -/
theorem test_nrzi_dec : after (.nrziDec true) (withIbuf (bits [0, 1, 1, 0]) State.reset) obufSeq = some (bits [1, 1, 0, 1]) ∧
    after (.nrziDec false) (withIbuf (bits [0, 1, 1, 0]) State.reset) obufSeq = some (bits [0, 1, 0, 1]) := by decide +kernel
/-- V-P2, S1. -/
theorem test_pre_gen : after .preGen State.reset (fun t => (obufSeq t, t.obufLen)) = some (pre, 64#32) := by decide +kernel
/-- V-P1. -/
theorem test_pre_match : after .preMatch (withIbuf (pre ++ [false]) State.reset) (·.res) = some 1#32 ∧
    after .preMatch (withIbuf (hex 64 0x2AAAAAAAAAAAAAAB) State.reset) (fun t => (t.res, t.status)) = some (0#32, 1#16) := by decide +kernel
/-- V-P1. -/
theorem test_pre_match_short : after .preMatch (withIbuf (pre.take 63) State.reset) (fun t => (t.res, t.status)) = some (0#32, 1#16) := by decide +kernel
/-- V-P2. -/
theorem test_pm_reset : after .pmReset { State.reset with pm := 0x00000140#32 } (·.pm) = some 0#32 := by decide +kernel
/-- V-P2: the last of the 64 bits, and a bit after them. -/
theorem test_pm_bit : after (.pmBit true) { State.reset with pm := 0x0000003F#32 } (fun t => (t.res, t.pm)) = some (1#32, 0x00000140#32) ∧
    after (.pmBit false) { State.reset with pm := 0x00000140#32 } (fun t => (t.res, t.pm)) = some (1#32, 0x00000140#32) := by decide +kernel
/-- V-P2: the second bit of "11", and the flipped last bit. -/
theorem test_pm_bit_fails : after (.pmBit true) { State.reset with pm := 0x00000001#32 } (fun t => (t.res, t.pm)) = some (2#32, 0x00000201#32) ∧
    after (.pmBit false) { State.reset with pm := 0x0000003F#32 } (fun t => (t.res, t.pm)) = some (2#32, 0x0000023F#32) := by decide +kernel
/-- V-C1. -/
theorem test_crc_init : after .crcInit { State.reset with crcAcc := 5#32 } (fun t => (t.crcAcc, t.res)) = some (0xFFFFFFFF#32, 0#32) := by decide +kernel
/-- V-C1, P3. -/
theorem test_crc_byte : after (.crcByte 0x61#8) State.reset (·.crcAcc) = some 0x174841BC#32 ∧
    after (.crcByte 0x62#8) { State.reset with crcAcc := 0x174841BC#32 } (·.crcAcc) = some 0x617CB792#32 := by decide +kernel
/-- V-C1. -/
theorem test_crc_final : after .crcFinal { State.reset with crcAcc := 0x617CB792#32 } (fun t => (t.res, t.crcAcc)) =
    some (0x9E83486D#32, 0x617CB792#32) := by decide +kernel
/-- V-C1. -/
theorem test_crc32 : after .crc32 (withFrame 0 0 ab State.reset) (·.res) = some 0x9E83486D#32 ∧
    after .crc32 State.reset (·.res) = some 0#32 := by decide +kernel
/-- V-F1. -/
theorem test_frame_marshal : after .frameMarshal (withFrame 1 2 ab State.reset) (fun t => (t.status, obufSeq t)) = some (1#16, raw1) := by decide +kernel
/-- V-F4: the target comes first. -/
theorem test_frame_marshal_order : after .frameMarshal (withFrame 0x123456789ABC 0xFEDCBA987654 [0x48#8, 0x69#8] State.reset) obufSeq =
    some (hex 160 0xFEDCBA987654123456789ABC00024869076D4908) := by decide +kernel
/-- V-F1. -/
theorem test_frame_split : after .frameSplit (withIbuf raw1 State.reset) (fun t => (t.src, t.tgt, pbufSeq t, t.status)) =
    some (1#64, 2#64, ab, 1#16) := by decide +kernel
/-- V-F10: the CRC passes and the length check fails. -/
theorem test_frame_split_length : after .frameSplit (withIbuf (hex 176 0x0000000000020000000000010003616263642A56196F) State.reset)
    (fun t => (t.status, t.src, t.pbufLen)) = some (0x000E#16, 0#64, 0#32) := by decide +kernel
/-- V-F1. -/
theorem test_frame_enc : after .frameEnc (withFrame 1 2 ab State.reset) (fun t => (t.status, obufSeq t)) = some (1#16, frame1) := by decide +kernel
/-- V-F2: the minimum frame. -/
theorem test_frame_enc_minimum : after .frameEnc State.reset obufSeq =
    some (hex 244 0xAAAAAAAAAAAAAAAB5AD6B5AD6B5AD6B5AD6B5AD6B5AD6B5AD6B6C4A5A8A75) := by decide +kernel
/-- V-F3. -/
theorem test_frame_dec : after .frameDec (withIbuf (hex 264 0xAAAAAAAAAAAAAAAB4A5294A5294A5294A5294A5294A5295AD675AD2965B976B624) State.reset)
    (fun t => (t.src, t.tgt, pbufSeq t, t.status)) = some (0xFFFFFFFFFFFF#64, 0xFFFFFFFFFFFF#64, [0x00#8, 0xFF#8], 1#16) := by decide +kernel
/-- V-F7, V-F9: one flipped transmitted bit, and ten trailing ones. -/
theorem test_frame_dec_fails : after .frameDec (withIbuf (frame1.modify 64 (!·)) State.reset) (·.status) = some 0x0008#16 ∧
    after .frameDec (withIbuf (frame1 ++ bits [0, 1, 0, 1, 1, 0, 1, 0, 1, 1]) State.reset) (·.status) = some 0x000C#16 := by decide +kernel
/-- V-X1. -/
theorem test_xfer : after .xfer (withObuf pre State.reset) (fun t => (ibufSeq t, t.ibufLen)) = some (pre, 64#32) := by decide +kernel
/-- V-X3: IBUF_CAP = 144, OBUF_LEN = 264. -/
theorem test_xfer_overflow : after .xfer (withCaps 144 655594 65535 { State.reset with obufLen := 264#32, ibufLen := 7#32 })
    (fun t => (t.status, t.ibufLen)) = some (0x0014#16, 7#32) := by decide +kernel
/-- V-X3: LC_EXPAND with OBUF_CAP = 100. -/
theorem test_obuf_overflow : after .lcExpand (withCaps 655594 100 65535 (withIbuf (List.replicate 80 false) State.reset))
      (fun t => (t.status, t.obufLen)) = some (1#16, 100#32) ∧
    after .lcExpand (withCaps 655594 100 65535 (withIbuf (List.replicate 84 false) { State.reset with obufLen := 100#32 }))
      (fun t => (t.status, t.obufLen)) = some (0x0014#16, 100#32) := by decide +kernel

/-! ### The host's accesses and reset (V-R1, V-X2) -/

theorem test_write_read_only : stepped (withAccess (.writeReg 1 5) State.reset) (·.status) = some 0#16 ∧
    stepped (withAccess (.writeReg 8 0) State.reset) (·.crcAcc) = some 0xFFFFFFFF#32 := by decide +kernel
theorem test_reserved_register : stepped (withAccess (.writeReg 11 7) State.reset) id = some State.reset ∧
    stepped (withAccess (.readReg 11) State.reset) (·.reply) = some (some 0#64) := by decide +kernel
theorem test_write_ibuf_len : stepped (withAccess (.writeReg 5 655595) State.reset) (·.ibufLen) = some 0#32 ∧
    stepped (withAccess (.writeReg 5 655594) State.reset) (·.ibufLen) = some 655594#32 := by decide +kernel
theorem test_read_reset_registers : stepped (withAccess (.readReg 8) State.reset) (·.reply) = some (some 0xFFFFFFFF#64) ∧
    stepped (withAccess (.readReg 9) State.reset) (·.reply) = some (some 3#64) := by decide +kernel
theorem test_buffer_round_trip : stepped (withAccess (.readPbuf 1) (withFrame 0 0 ab State.reset)) (·.reply) = some (some 0x62#64) ∧
    stepped (withAccess (.writeIbuf 3 true) State.reset) (·.ibuf) = some [(3, true)] := by decide +kernel
theorem test_illegal_word : stepped (withAccess (.writeReg 0 0x00000123) State.reset) id =
    some { State.reset with cmd := 0x00000123#32, status := 0x0016#16 } := by decide +kernel
theorem test_host_reset : stepped (withAccess .reset (withIbuf pre { State.reset with res := 5#32 }))
    (fun t => (t.res, t.nrz, t.ibuf, t.ibufLen)) = some (0#32, 3#32, [], 0#32) := by decide +kernel
theorem test_no_access : step State.reset = .next State.reset := rfl

/-! ### Witnesses: states and operands that meet the premises of the obligations, each clause at a boundary of its range -/

/-- Every command's OPC with the first number above its bound: an illegal word that `encodedAs` speaks of. -/
theorem witness_encodedAs : ∀ p ∈ [(0x00, 1), (0x01, 16), (0x02, 32), (0x03, 1), (0x04, 1), (0x08, 2), (0x09, 2), (0x0A, 2), (0x0B, 2),
    (0x0C, 2), (0x10, 1), (0x11, 1), (0x12, 1), (0x13, 2), (0x18, 1), (0x19, 256), (0x1A, 1), (0x1B, 1), (0x20, 1), (0x21, 1),
    (0x22, 1), (0x23, 1), (0x28, 1)], (BitVec.ofNat 32 (p.1 + 256 * p.2)).toNat % 256 = p.1 ∧
      p.2 ≤ (BitVec.ofNat 32 (p.1 + 256 * p.2)).toNat / 256 := by decide +kernel

theorem witness_EncodeOfDecodeIsTheWord : decode 0x0000FF19#32 = .ok (.crcByte 0xFF#8) ∧ encode (.crcByte 0xFF#8) = 0x0000FF19#32 := by decide +kernel

theorem witness_DecodeAcceptsExactlyTheLegalWords : legalWord 0x00000000#32 ∧ legalWord 0x0000010C#32 ∧ legalWord 0x00000F01#32 ∧
    legalWord 0x00001F02#32 ∧ legalWord 0x0000FF19#32 ∧ ¬ legalWord 0x00000100#32 ∧ ¬ legalWord 0x0000020C#32 ∧
    ¬ legalWord 0x00001001#32 ∧ ¬ legalWord 0x00002002#32 ∧ ¬ legalWord 0x00010019#32 := by simp [legalWord]

theorem witness_IllegalWordsFailAndEveryOtherWordIsACommand :
    (withAccess (.writeReg 0 0x00000123) State.reset).pending = .writeReg 0 0x00000123 :: [] ∧
      ¬ legalWord (BitVec.ofNat 32 0x00000123) ∧ legalWord (BitVec.ofNat 32 0x00000023) :=
  ⟨rfl, by simp [legalWord], by simp [legalWord]⟩

theorem witness_StepRunsTheDecodedCommand :
    (withAccess (.writeReg 0 0x00000701) State.reset).pending = .writeReg 0 0x00000701 :: [] ∧
      decode (BitVec.ofNat 32 0x00000701) = .ok (.lcExp4 7#4) := by decide +kernel

/-- A state with written cells in all three buffers, a failure in STATUS, and PRE_GEN to run. -/
def busy : State :=
  withAccess (.writeReg 0 0x00000010) (withIbuf (bits [1, 0, 1]) (withObuf (bits [0, 1]) (withFrame 1 2 ab
    { State.reset with status := 0x0016#16, pm := 0x00000140#32 })))

theorem busy_inv : StateInv busy where
  params := by decide +kernel
  status := by decide +kernel
  nrz := by decide +kernel
  pm := by decide +kernel
  ibufLen := by decide +kernel
  obufLen := by decide +kernel
  pbufLen := by decide +kernel
  ibufWf := by decide +kernel
  obufWf := by decide +kernel
  pbufWf := by decide +kernel
  ibufWithin := by decide +kernel
  obufWithin := by decide +kernel
  pbufWithin := by decide +kernel
  obufWritten := by decide +kernel

theorem witness_StepKeepsInvariant : StateInv busy ∧ ∃ t, step busy = .next t ∧ t.obufLen = 64#32 := by
  refine ⟨busy_inv, ?_⟩
  have h : stepped busy (·.obufLen) = some 64#32 := by decide +kernel
  unfold stepped at h
  split at h
  · rename_i t ht
    exact ⟨t, ht, by simpa using h⟩
  · cases h

theorem witness_HostWritesReachTheWritableRegisters :
    (withAccess (.writeReg 3 (2 ^ 64 - 1)) State.reset).pending = .writeReg 3 (2 ^ 64 - 1) :: [] ∧
    (withAccess (.writeReg 4 0) State.reset).pending = .writeReg 4 0 :: [] ∧
    ((withAccess (.writeReg 5 655594) State.reset).pending = .writeReg 5 655594 :: [] ∧ 655594 % 2 ^ 32 ≤ State.reset.par.ibufCap) ∧
    ((withAccess (.writeReg 5 655595) State.reset).pending = .writeReg 5 655595 :: [] ∧ 655595 % 2 ^ 32 > State.reset.par.ibufCap) ∧
    ((withAccess (.writeReg 7 65535) State.reset).pending = .writeReg 7 65535 :: [] ∧ 65535 % 2 ^ 32 ≤ State.reset.par.pbufCap) ∧
    ((withAccess (.writeReg 7 65536) State.reset).pending = .writeReg 7 65536 :: [] ∧ 65536 % 2 ^ 32 > State.reset.par.pbufCap) := by
  decide +kernel

theorem witness_WritesToReadOnlyAndReservedRegistersAreIgnored :
    ((withAccess (.writeReg 10 7) State.reset).pending = .writeReg 10 7 :: [] ∧ 10 ∈ [1, 2, 6, 8, 9, 10]) ∧
    ((withAccess (.writeReg 11 7) State.reset).pending = .writeReg 11 7 :: [] ∧ 11 ≤ 11) ∧
    (withAccess (.readReg 11) State.reset).pending = .readReg 11 :: [] ∧ StateInv busy :=
  ⟨by decide +kernel, by decide +kernel, by decide +kernel, busy_inv⟩

theorem witness_HostReadsAnswerAndChangeNothing :
    (withAccess (.readReg 10) State.reset).pending = .readReg 10 :: [] ∧
    ((withAccess (.readIbuf 655593) State.reset).pending = .readIbuf 655593 :: [] ∧ 655593 < State.reset.par.ibufCap) ∧
    ((withAccess (.readIbuf 655594) State.reset).pending = .readIbuf 655594 :: [] ∧ State.reset.par.ibufCap ≤ 655594) ∧
    ((withAccess (.readObuf 655593) State.reset).pending = .readObuf 655593 :: [] ∧ 655593 < State.reset.par.obufCap) ∧
    ((withAccess (.readObuf 655594) State.reset).pending = .readObuf 655594 :: [] ∧ State.reset.par.obufCap ≤ 655594) ∧
    ((withAccess (.readPbuf 65534) State.reset).pending = .readPbuf 65534 :: [] ∧ 65534 < State.reset.par.pbufCap) ∧
    ((withAccess (.readPbuf 65535) State.reset).pending = .readPbuf 65535 :: [] ∧ State.reset.par.pbufCap ≤ 65535) := by
  decide +kernel

theorem witness_HostBufferWritesReachOneCell :
    (withAccess (.writeIbuf 655594 true) State.reset).pending = .writeIbuf 655594 true :: [] ∧
    (withAccess (.writePbuf 65534 0x61#8) State.reset).pending = .writePbuf 65534 0x61#8 :: [] := by decide +kernel

theorem witness_ResetGivesTheResetState : (withAccess .reset busy).pending = .reset :: [] := by decide +kernel

theorem defaults_injective : injectiveTable State.reset.par.lcTable := by decide +kernel

theorem witness_LineCodeRomsAreInverse : injectiveTable State.reset.par.lcTable ∧ ∀ g : Group, lcExp State.reset.par.lcTable g ≠ 0x1F#5 := by
  decide +kernel

theorem witness_LcCon5GivesTheGroupOrFails : injectiveTable State.reset.par.lcTable ∧ lcExp State.reset.par.lcTable 15#4 = 0x1D#5 ∧
    ∀ g, lcExp State.reset.par.lcTable g ≠ 0x00#5 := by decide +kernel

/-- V-X3: LC_EXPAND with OBUF_CAP = 100, misaligned, one group too long, and at the capacity. -/
theorem witness_LcExpandExpandsOrFails : (withIbuf (bits [0, 0, 0]) State.reset).ibufLen.toNat % 4 ≠ 0 ∧
    (let s := withCaps 144 100 0 { State.reset with ibufLen := 84#32 };
      s.ibufLen.toNat % 4 = 0 ∧ s.par.obufCap < 5 * s.ibufLen.toNat / 4) ∧
    (let s := withCaps 144 100 0 { State.reset with ibufLen := 80#32 };
      s.par.ok ∧ s.ibufLen.toNat % 4 = 0 ∧ 5 * s.ibufLen.toNat / 4 ≤ s.par.obufCap) := by decide +kernel

/-- V-L4, and OBUF_CAP = 64 with 85 and 80 bits of valid codewords. -/
theorem witness_LcContractContractsOrFails :
    let entry (s : State) (j : Nat) : ConEntry :=
      lcCon s.par.lcTable (BitVec.ofNat 5 (bitsToUInt (slice (ibufSeq s) (5 * j) (5 * j + 5))))
    let group0 (n : Nat) : State := withCaps 144 64 0 (withIbuf (List.replicate n (bits [1, 1, 1, 1, 0])).flatten State.reset)
    (withIbuf (bits [0, 0, 0, 0]) State.reset).ibufLen.toNat % 5 ≠ 0 ∧
    (let s := withIbuf (bits [1, 1, 1, 1, 0, 0, 0, 0, 0, 0]) State.reset;
      s.ibufLen.toNat % 5 = 0 ∧ ¬ ∀ j < s.ibufLen.toNat / 5, (entry s j).valid = true) ∧
    ((group0 17).ibufLen.toNat % 5 = 0 ∧ (∀ j < (group0 17).ibufLen.toNat / 5, (entry (group0 17) j).valid = true) ∧
      (group0 17).par.obufCap < 4 * (group0 17).ibufLen.toNat / 5) ∧
    ((group0 16).ibufLen.toNat % 5 = 0 ∧ (∀ j < (group0 16).ibufLen.toNat / 5, (entry (group0 16) j).valid = true) ∧
      4 * (group0 16).ibufLen.toNat / 5 ≤ (group0 16).par.obufCap) := by decide +kernel

/-- V-N1, V-N2: "1011" with seed 1. -/
theorem witness_NrziCodersFollowTheirFormulas : (bits [1, 0, 1, 1])[0]? = some true ∧
    (bits [1, 0, 1, 1])[2 + 1]? = some true ∧ (bits [1, 0, 1, 1])[2]? = some true ∧
    (toDifferential (bits [1, 0, 1, 1]) true)[2]? = some true := by decide +kernel

theorem witness_NrziEbitIsOneEncoderStep : (toDifferential (bits [1, 0, 1, 1]) true)[0]? = some false ∧
    (toDifferential (bits [1, 0, 1, 1]) true)[3]? = some false := by decide +kernel

theorem witness_NrziDbitIsOneDecoderStep : (fromDifferential (bits [0, 0, 1, 0]) true)[0]? = some true ∧
    (fromDifferential (bits [0, 0, 1, 0]) true)[3]? = some true := by decide +kernel

/-- V-X3: OBUF_CAP = 100. -/
theorem witness_NrziEncEncodesOrFails :
    (let s := withCaps 144 100 0 { State.reset with ibufLen := 101#32 };
      s.par.obufCap < s.ibufLen.toNat) ∧
    (let s := withCaps 144 100 0 { State.reset with ibufLen := 100#32 };
      s.ibufLen.toNat ≤ s.par.obufCap) := by decide +kernel

theorem witness_NrziDecDecodesOrFails :
    (let s := withCaps 144 100 0 { State.reset with ibufLen := 101#32 };
      s.par.obufCap < s.ibufLen.toNat) ∧
    (let s := withCaps 144 100 0 { State.reset with ibufLen := 100#32 };
      s.ibufLen.toNat ≤ s.par.obufCap) ∧ 3 < (bits [0, 0, 1, 0]).length := by decide +kernel

theorem witness_PreambleMatchIsExact : pre.length = 64 ∧ (pre.take 63).length < 64 ∧ matchPreamble (pre ++ [false]) = true := by decide +kernel

theorem witness_PreGenEmitsThePreamble : (withCaps 144 64 0 State.reset).par.ok := by decide +kernel

/-- V-P2: the registers before the last bit, before a wrong bit, after a match and after a failure. -/
theorem witness_PmBitIsOneMatcherStep :
    (pmLegal 0x0000003F#32 ∧ pmSt 0x0000003F#32 = pmMatching ∧ preRom[(pmCnt 0x0000003F#32).toNat]? = some true) ∧
    (pmLegal 0x0000003F#32 ∧ pmSt 0x0000003F#32 = pmMatching ∧ preRom[(pmCnt 0x0000003F#32).toNat]? ≠ some false) ∧
    (pmLegal 0x00000140#32 ∧ pmSt 0x00000140#32 ≠ pmMatching) ∧ (pmLegal 0x00000203#32 ∧ pmSt 0x00000203#32 ≠ pmMatching) := by
  decide +kernel

theorem witness_PreMatchTestsTheInput : (withIbuf (pre.take 63) State.reset).ibufLen.toNat < 64 := by decide +kernel

theorem witness_Crc32OfThePayloadBuffer : State.reset.pbufLen = 0#32 := rfl

theorem witness_RawFrameLayout : 2 ^ 48 - 1 < 2 ^ 48 ∧ (List.replicate 65535 0#8).length ≤ 65535 ∧ ab.length ≤ 65535 :=
  ⟨by decide, by rw [List.length_replicate], by decide⟩

/-- V-F3: the largest addresses. -/
theorem witness_TransmittableFrameLayout : 0xFFFFFFFFFFFF < 2 ^ 48 ∧ 0xFFFFFFFFFFFF < 2 ^ 48 ∧ ab.length ≤ 65535 := by decide +kernel

/-- V-F5, and V-X3's OBUF_CAP one below and at the length needed. -/
theorem witness_FrameMarshalBuildsTheRawFrameOrFails :
    (let s := { State.reset with tgt := 0x1000000000000#64 };
      ¬ (s.tgt.toNat < 2 ^ 48 ∧ s.src.toNat < 2 ^ 48)) ∧
    (let s := withCaps 144 64 70000 { State.reset with pbufLen := 65536#32 };
      (s.tgt.toNat < 2 ^ 48 ∧ s.src.toNat < 2 ^ 48) ∧ 65535 < s.pbufLen.toNat) ∧
    (let s := withCaps 144 143 0 State.reset;
      (s.tgt.toNat < 2 ^ 48 ∧ s.src.toNat < 2 ^ 48) ∧ s.pbufLen.toNat ≤ 65535 ∧ s.par.obufCap < 144 + 8 * s.pbufLen.toNat) ∧
    (let s := withCaps 144 144 0 State.reset;
      (s.tgt.toNat < 2 ^ 48 ∧ s.src.toNat < 2 ^ 48) ∧ s.pbufLen.toNat ≤ 65535 ∧ 144 + 8 * s.pbufLen.toNat ≤ s.par.obufCap) := by
  decide +kernel

/-- V-F5, and OBUF_CAP one below and at the length needed. -/
theorem witness_FrameEncBuildsTheTransmittableFrameOrFails :
    (let s := { State.reset with src := 0x1000000000000#64 };
      ¬ (s.tgt.toNat < 2 ^ 48 ∧ s.src.toNat < 2 ^ 48)) ∧
    (let s := withCaps 144 64 70000 { State.reset with pbufLen := 65536#32 };
      (s.tgt.toNat < 2 ^ 48 ∧ s.src.toNat < 2 ^ 48) ∧ 65535 < s.pbufLen.toNat) ∧
    (let s := withCaps 144 243 0 State.reset;
      (s.tgt.toNat < 2 ^ 48 ∧ s.src.toNat < 2 ^ 48) ∧ s.pbufLen.toNat ≤ 65535 ∧ s.par.obufCap < 244 + 10 * s.pbufLen.toNat) ∧
    (let s := State.reset;
      (s.tgt.toNat < 2 ^ 48 ∧ s.src.toNat < 2 ^ 48) ∧ s.pbufLen.toNat ≤ 65535 ∧ 244 + 10 * s.pbufLen.toNat ≤ s.par.obufCap) := by
  decide +kernel

/-- The premises of FRAME_SPLIT's clauses on a raw frame `r`, in order: too short, not bytes, wrong CRC, wrong length, well. -/
def splitClause (r : BitSeq) : Nat :=
  let n := r.length
  if n < 144 then 0 else if n % 8 ≠ 0 then 1
  else if bitsToUInt (slice r (n - 32) n) ≠ (crc32 (bytesOf (slice r 0 (n - 32)))).toNat then 2
  else if bitsToUInt (slice r 96 112) ≠ (n - 144) / 8 then 3 else 4

/-- V-F11, V-F8, V-F10, V-F1: each clause is met; V-F1's payload of two bytes is above a PBUF_CAP of 1 and fits the default. -/
theorem witness_FrameSplitDeliversTheFieldsOrFails : splitClause (raw1.take 143) = 0 ∧ splitClause (raw1.take 148) = 1 ∧
    splitClause (raw1.modify 111 (!·)) = 2 ∧ splitClause (hex 176 0x0000000000020000000000010003616263642A56196F) = 3 ∧
    splitClause raw1 = 4 ∧ 1 < (raw1.length - 144) / 8 ∧ (raw1.length - 144) / 8 ≤ State.reset.par.pbufCap := by decide +kernel

/-- V-F6: too short, no preamble, misaligned. -/
theorem witness_FrameDecDeliversTheFrameOrFails :
    (frame1.take 143).length < 144 ∧
    ((List.replicate 144 false).length = 144 ∧ matchPreamble (List.replicate 144 false) = false) ∧
    (144 ≤ (frame1 ++ [false]).length ∧ matchPreamble (frame1 ++ [false]) = true ∧ ((frame1 ++ [false]).length - 64) % 5 ≠ 0) := by
  decide +kernel

/-- FRAME_DEC's steps 3 to 5 on an input: the raw frame it contracts to, and how that splits. -/
def contracted (x : BitSeq) : Except Reason BitSeq :=
  changeCoding (fromDifferential (x.drop 64) true) (contract State.reset.par.lcTable) 5

/-- How the raw frame an input contracts to splits. -/
def decoded (x : BitSeq) : Except Reason Frame :=
  match contracted x with
  | .error e => .error e
  | .ok raw => splitFrame raw

/-- V-F7, V-F6, V-F10 and V-F1: an invalid codeword, and the four ways the raw frame of a valid input can split. -/
theorem witness_FrameDecSplits : contracted (frame1.modify 64 (!·)) = .error .invalidCodeword ∧
    decoded (frame1.take 239) = .error .shortFrame ∧ decoded (frame1.take 244) = .error .crcMismatch ∧
    decoded (frame1.take 259) = .error .lengthMismatch ∧ decoded frame1 = .ok ⟨1, 2, ab⟩ ∧
    (withCaps 264 264 1 State.reset).par.pbufCap < ab.length ∧ ab.length ≤ State.reset.par.pbufCap := by decide +kernel

/-- The reset state with a payload meets the premises under the default parameters. -/
theorem witness_RoundTrip : injectiveTable State.reset.par.lcTable ∧
    (let s := withFrame 0xFFFFFFFFFFFF 0xFFFFFFFFFFFF ab State.reset;
      s.par.ok ∧ 655594 ≤ s.par.ibufCap ∧ 655594 ≤ s.par.obufCap ∧ 65535 ≤ s.par.pbufCap ∧ s.src.toNat < 2 ^ 48 ∧
        s.tgt.toNat < 2 ^ 48 ∧ s.pbufLen.toNat ≤ 65535) := by decide +kernel

theorem witness_FrameCommandsEqualTheStepByStepPath :
    (let s := withCaps 264 264 2 (withFrame 1 2 ab State.reset);
      s.par.ok ∧ 244 + 10 * s.pbufLen.toNat ≤ s.par.obufCap ∧ 244 + 10 * s.pbufLen.toNat ≤ s.par.ibufCap ∧
        s.src.toNat < 2 ^ 48 ∧ s.tgt.toNat < 2 ^ 48 ∧ s.pbufLen.toNat ≤ 65535) ∧
    (let s := withCaps 264 264 2 (withIbuf frame1 State.reset);
      let s' := withCaps 264 264 2 (withIbuf (frame1.drop 64) State.reset)
      s.par.ok ∧ s'.par = s.par ∧ 144 ≤ s.ibufLen.toNat ∧ matchPreamble (ibufSeq s) = true ∧ ibufSeq s' = (ibufSeq s).drop 64 ∧
        s.ibufLen.toNat ≤ s.par.obufCap ∧ s.ibufLen.toNat ≤ s.par.ibufCap) := by decide +kernel

theorem witness_FailureStepProperties : injectiveTable State.reset.par.lcTable ∧ splitFrame raw1 = .ok ⟨1, 2, ab⟩ ∧ 159 < raw1.length ∧
    (∃ lc, changeCoding (raw1.modify 159 (!·)) (expand State.reset.par.lcTable) 4 = .ok lc) ∧
    (0xFFFFFFFFFFFF < 2 ^ 48 ∧ 65535 < 2 ^ 16 ∧ 65535 ≠ ab.length) ∧
    (63 < 64 ∧ 144 ≤ 64 + (List.replicate 80 false).length) ∧ (0 < 64 ∧ 64 + (List.replicate 79 false).length < 144) := by
  refine ⟨defaults_injective, by decide +kernel, by decide +kernel, ⟨_, changeCoding_expand _ (by decide +kernel)⟩, ?_⟩
  decide +kernel

theorem witness_XferCopiesTheOutputOrFails :
    (let s := withCaps 144 655594 0 { State.reset with obufLen := 145#32 };
      s.par.ibufCap < s.obufLen.toNat) ∧
    (let s := withCaps 144 655594 0 { State.reset with obufLen := 144#32 };
      s.obufLen.toNat ≤ s.par.ibufCap) := by decide +kernel

theorem witness_FailureChangesOnlyStatus : exec (.lcCon5 0x00#5) State.reset = .next { State.reset with status := 0x0008#16 } ∧
    (0x0008#16 : BitVec 16) ≠ 0x0001#16 := ⟨rfl, by decide⟩

theorem witness_CommandsReadNeitherStatusNorCmd : exec .crcInit busy = .next { busy with crcAcc := 0xFFFFFFFF#32, status := 0x0001#16 } := rfl

theorem witness_BatchCommandsIgnoreTheStreamingState : isBatch .crc32 = true ∧
    exec .crc32 State.reset = .next { State.reset with res := 0#32, status := 0x0001#16 } := ⟨rfl, rfl⟩

/-- A command that changes each of the registers and buffers the clauses name. -/
theorem witness_RegistersAreWrittenOnlyByTheirCommands :
    after (.lcExp4 0#4) State.reset (fun t => t.res != 0#32) = some true ∧
    after .frameSplit (withIbuf raw1 State.reset) (fun t => (t.src != 0#64, t.tgt != 0#64, t.pbufLen != 0#32)) = some (true, true, true) ∧
    after .frameSplit (withIbuf raw1 (withFrame 0 0 [0x00#8] State.reset)) (fun t => pbufCell t 0 != 0x00#8) = some true ∧
    after .xfer (withObuf [true] (withIbuf [false, false] State.reset)) (fun t => (t.ibufLen != 2#32, ibufCell t 0 != false)) = some (true, true) ∧
    after .preGen (withObuf [false] State.reset) (fun t => (t.obufLen != 1#32, obufCell t 0 != false)) = some (true, true) ∧
    after (.crcByte 0#8) State.reset (fun t => t.crcAcc != 0xFFFFFFFF#32) = some true ∧
    after (.nrziSeed false) State.reset (fun t => t.nrz != 3#32) = some true ∧
    after (.pmBit true) State.reset (fun t => t.pm != 0#32) = some true := by decide +kernel

theorem witness_CellsBeyondTheLengthAreNeverRead : busy.ibufLen.toNat ≤ 3 ∧ busy.obufLen.toNat ≤ 2 ∧ busy.pbufLen.toNat ≤ 2 ∧
    ∃ t, exec .crcInit busy = .next t := ⟨by decide +kernel, by decide +kernel, by decide +kernel, _, rfl⟩

end Sys2Proof.Tests
end

section
/-! The invariant of every reachable state (`StateInv`): what one access and one command keep of it, then every step. -/

namespace Sys2Proof.Machine

/-! ### STATUS and the lengths -/

theorem statusLegal_success : statusLegal statusSuccess := .inl rfl

/-- R27, R180: every failure leaves a reachable STATUS. -/
theorem statusLegal_failure (r : Reason) : statusLegal (statusFailure r) := by cases r <;> decide

/-- A length register never reads more than the length it was given (less, if that had not fitted its 32 bits). -/
theorem toNat_lengthReg_le (n : Nat) : (BitVec.ofNat 32 n).toNat ≤ n := by
  rw [BitVec.toNat_ofNat]
  exact Nat.mod_le _ _

/-- R56: after a run of writes from cell 0, every cell of the run has been written. -/
theorem isSome_get?_writeFrom {α : Type} (m : Memory α) (xs : List α) {i : Nat} (h : i < xs.length) :
    (Memory.get? (Memory.writeFrom m 0 xs) i).isSome := by
  simp [Memory.get?_writeFrom_zero, h]

/-! ### The shared operations

`StateInv` speaks of the parameters, STATUS, NRZ, PM, the lengths and the buffers; an update gives the fields it touches
anew and takes the others from the state before. -/

variable {s t : State}

theorem stateInv_takeAccess (h : StateInv s) (rest : List HostAccess) : StateInv (takeAccess rest s) := { h with }

theorem stateInv_answer (h : StateInv s) (v : BitVec 64) : StateInv (answer v s) := { h with }

theorem stateInv_latchCmd (h : StateInv s) (w : Word) : StateInv (latchCmd w s) := { h with }

theorem stateInv_fail (h : StateInv s) (r : Reason) : StateInv (fail r s) :=
  { h with status := statusLegal_failure r }

/-- A command that writes scalar registers alone. -/
theorem stateInv_scalar (h : StateInv s) (res acc : BitVec 32) {nrz pm : BitVec 32} (hn : nrzLegal nrz) (hp : pmLegal pm) :
    StateInv { s with res := res, crcAcc := acc, nrz := nrz, pm := pm, status := statusSuccess } :=
  { h with status := statusLegal_success, nrz := hn, pm := hp }

/-- R56: the new OBUF_LEN bits are the ones just written, so OBUF_LEN does not run ahead of the cells. -/
theorem stateInv_emit (h : StateInv s) {out : BitSeq} (hf : out.length ≤ s.par.obufCap) :
    StateInv { s with
      obuf := Memory.writeFrom s.obuf 0 out, obufLen := BitVec.ofNat 32 out.length, status := statusSuccess } :=
  { h with
    status := statusLegal_success
    obufLen := (toNat_lengthReg_le _).trans hf
    obufWf := Memory.wf_writeFrom h.obufWf 0 out
    obufWithin := Memory.within_writeFrom h.obufWithin 0 out (by omega)
    obufWritten := fun _ hi => isSome_get?_writeFrom s.obuf out (hi.trans_le (toNat_lengthReg_le _)) }

theorem stateInv_fillIbuf (h : StateInv s) (hf : s.obufLen.toNat ≤ s.par.ibufCap) :
    StateInv { s with
      ibuf := Memory.writeFrom s.ibuf 0 (obufSeq s), ibufLen := s.obufLen, status := statusSuccess } :=
  { h with
    status := statusLegal_success
    ibufLen := hf
    ibufWf := Memory.wf_writeFrom h.ibufWf 0 (obufSeq s)
    ibufWithin := Memory.within_writeFrom h.ibufWithin 0 (obufSeq s) (by rw [obufSeq_length]; omega) }

theorem stateInv_deliver (h : StateInv s) (src tgt : BitVec 64) {p : List Byte} (hf : p.length ≤ s.par.pbufCap) :
    StateInv { s with
      src := src
      tgt := tgt
      pbuf := Memory.writeFrom s.pbuf 0 p
      pbufLen := BitVec.ofNat 32 p.length
      status := statusSuccess } :=
  { h with
    status := statusLegal_success
    pbufLen := (toNat_lengthReg_le _).trans hf
    pbufWf := Memory.wf_writeFrom h.pbufWf 0 p
    pbufWithin := Memory.within_writeFrom h.pbufWithin 0 p (by omega) }

/-- Every command keeps the invariant: one argument per outcome of `exec_cases`. -/
theorem stateInv_exec {i : Instr} (h : StateInv s) (he : exec i s = .next t) : StateInv t := by
  rcases exec_cases he with ⟨e, rfl⟩ | ⟨res, acc, nrz, pm, rfl, -, -, hn, hp⟩ | ⟨out, -, hf, rfl⟩ | ⟨-, hf, rfl⟩ |
    ⟨f, -, hf, rfl⟩
  · exact stateInv_fail h e
  · have hnrz : nrzLegal nrz := hn.elim (· ▸ h.nrz) And.left
    have hpm : pmLegal pm := hp.elim (· ▸ h.pm) fun hp => hp.1 h.pm
    exact stateInv_scalar h res acc hnrz hpm
  · exact stateInv_emit h hf
  · exact stateInv_fillIbuf h hf
  · exact stateInv_deliver h _ _ hf

/-! ### The host's accesses -/

theorem stateInv_writeIbufLen (h : StateInv s) (v : BitVec 32) : StateInv (writeIbufLen v s) := by
  unfold writeIbufLen
  split
  · rename_i hv
    exact { h with ibufLen := hv }
  · exact h

theorem stateInv_writePbufLen (h : StateInv s) (v : BitVec 32) : StateInv (writePbufLen v s) := by
  unfold writePbufLen
  split
  · rename_i hv
    exact { h with pbufLen := hv }
  · exact h

theorem stateInv_writeReg (h : StateInv s) (r v : Nat) : StateInv (writeReg r v s) := by
  unfold writeReg
  split
  · exact { h with }
  · exact { h with }
  · exact stateInv_writeIbufLen h _
  · exact stateInv_writePbufLen h _
  · exact h

theorem stateInv_hostWriteIbuf (h : StateInv s) (i : Nat) (b : Bool) : StateInv (hostWriteIbuf i b s) := by
  unfold hostWriteIbuf
  split
  · rename_i hi
    exact { h with ibufWf := Memory.wf_set h.ibufWf i b, ibufWithin := Memory.within_set h.ibufWithin hi b }
  · exact h

theorem stateInv_hostWritePbuf (h : StateInv s) (j : Nat) (x : Byte) : StateInv (hostWritePbuf j x s) := by
  unfold hostWritePbuf
  split
  · rename_i hj
    exact { h with pbufWf := Memory.wf_set h.pbufWf j x, pbufWithin := Memory.within_set h.pbufWithin hj x }
  · exact h

/-- R200, R202: a reset needs nothing of the state before it but its parameters: every other field is the reset value. -/
theorem stateInv_hostReset (h : s.par.ok) : StateInv (hostReset s) where
  params := h
  status := (by decide : statusLegal State.reset.status)
  nrz := (by decide : nrzLegal State.reset.nrz)
  pm := (by decide : pmLegal State.reset.pm)
  ibufLen := Nat.zero_le _
  obufLen := Nat.zero_le _
  pbufLen := Nat.zero_le _
  ibufWf := .nil
  obufWf := .nil
  pbufWf := .nil
  ibufWithin := fun _ hc => nomatch hc
  obufWithin := fun _ hc => nomatch hc
  pbufWithin := fun _ hc => nomatch hc
  obufWritten := fun _ hi => absurd hi (Nat.not_lt_zero _)

/-- R55: every access but a write to CMD keeps the invariant. -/
theorem stateInv_access (h : StateInv s) (a : HostAccess) : StateInv (access a s) := by
  cases a with
  | writeReg r v => exact stateInv_writeReg h r v
  | readReg r => exact stateInv_answer h _
  | writeIbuf i b => exact stateInv_hostWriteIbuf h i b
  | readIbuf i => exact stateInv_answer h _
  | readObuf i => exact stateInv_answer h _
  | writePbuf j x => exact stateInv_hostWritePbuf h j x
  | readPbuf j => exact stateInv_answer h _
  | reset => exact stateInv_hostReset h.params

/-! ### The step -/

/-- R26, R95: what issuing a word can do: run the command it decodes to, or fail as an illegal word. -/
theorem issue_cases {w : Word} (h : issue w s = .next t) :
    (∃ i, decode w = .ok i ∧ exec i (latchCmd w s) = .next t) ∨
    (∃ e, decode w = .error e ∧ t = fail .illegalCmd (latchCmd w s)) := by
  unfold issue at h
  split at h
  · rename_i i hi
    exact .inl ⟨i, hi, h⟩
  · rename_i e hw
    injection h with h
    exact .inr ⟨e, hw, h.symm⟩

/-- R196, R205: what one step can do: nothing with no access pending, issue the word of a write to CMD, or perform
another access. -/
theorem step_cases (h : step s = .next t) :
    (s.pending = [] ∧ t = s) ∨
    (∃ a rest w, s.pending = a :: rest ∧ issuedWord a = some w ∧ issue w (takeAccess rest s) = .next t) ∨
    (∃ a rest, s.pending = a :: rest ∧ issuedWord a = none ∧ t = access a (takeAccess rest s)) := by
  unfold step at h
  split at h
  · rename_i hp
    injection h with h
    exact .inl ⟨hp, h.symm⟩
  · rename_i a rest hp
    split at h
    · rename_i w hw
      exact .inr (.inl ⟨a, rest, w, hp, hw, h⟩)
    · rename_i hw
      injection h with h
      exact .inr (.inr ⟨a, rest, hp, hw, h.symm⟩)

theorem stateInv_issue {w : Word} (h : StateInv s) (hw : issue w s = .next t) : StateInv t := by
  have hl : StateInv (latchCmd w s) := stateInv_latchCmd h w
  rcases issue_cases hw with ⟨i, -, he⟩ | ⟨e, -, rfl⟩
  · exact stateInv_exec hl he
  · exact stateInv_fail hl _

theorem stateInv_step (h : StateInv s) (hs : step s = .next t) : StateInv t := by
  rcases step_cases hs with ⟨-, rfl⟩ | ⟨a, rest, w, -, -, hw⟩ | ⟨a, rest, -, -, rfl⟩
  · exact h
  · exact stateInv_issue (stateInv_takeAccess h rest) hw
  · exact stateInv_access (stateInv_takeAccess h rest) a

/-- Settles O8: `StateInv` is inductive, so no stronger predicate is needed; the split is by what the step performs. -/
theorem stepKeepsInvariant : Obligations.StepKeepsInvariant := by
  unfold Obligations.StepKeepsInvariant
  intro s t h hs
  exact stateInv_step h hs

end Sys2Proof.Machine
end

section
/-! A host access as one step (spec/20_memory.md R55, R67; spec/10_state.md R25 to R38): which command a write to CMD runs, what
a register write reaches, what a read answers. -/

namespace Sys2Proof.Machine

variable {s : State} {rest : List HostAccess}

/-! ### The step on a given access -/

/-- R205: a write to CMD. -/
theorem step_of_issues {a : HostAccess} {w : Word} (hp : s.pending = a :: rest) (hw : issuedWord a = some w) :
    step s = issue w (takeAccess rest s) := by
  simp only [step, hp, hw]

/-- R205: every other access. -/
theorem step_of_accesses {a : HostAccess} (hp : s.pending = a :: rest) (hw : issuedWord a = none) :
    step s = .next (access a (takeAccess rest s)) := by
  simp only [step, hp, hw]

/-- R26: a legal word runs its command. -/
theorem issue_of_decode {w : Word} {i : Instr} (h : decode w = .ok i) : issue w s = exec i (latchCmd w s) := by
  simp only [issue, h]

/-- Settles O6: the word is latched and its command run. -/
theorem stepRunsTheDecodedCommand : Obligations.StepRunsTheDecodedCommand := by
  unfold Obligations.StepRunsTheDecodedCommand
  intro s v rest i hp hi
  rw [step_of_issues hp rfl, issue_of_decode hi]
  rfl

/-! ### Register writes -/

/-- R55: a write to a register other than CMD. -/
theorem step_writeReg {r v : Nat} (hp : s.pending = .writeReg r v :: rest) (hr : r ≠ 0) :
    step s = .next (writeReg r v (takeAccess rest s)) :=
  step_of_accesses hp (if_neg hr)

theorem writeIbufLen_fits {v : BitVec 32} (h : v.toNat ≤ s.par.ibufCap) : writeIbufLen v s = { s with ibufLen := v } :=
  if_pos h

theorem writeIbufLen_ignored {v : BitVec 32} (h : s.par.ibufCap < v.toNat) : writeIbufLen v s = s :=
  if_neg (Nat.not_le.2 h)

theorem writePbufLen_fits {v : BitVec 32} (h : v.toNat ≤ s.par.pbufCap) : writePbufLen v s = { s with pbufLen := v } :=
  if_pos h

theorem writePbufLen_ignored {v : BitVec 32} (h : s.par.pbufCap < v.toNat) : writePbufLen v s = s :=
  if_neg (Nat.not_le.2 h)

/-- Settles O10: the register's own rule, after the truncation to its width. -/
theorem hostWritesReachTheWritableRegisters : Obligations.HostWritesReachTheWritableRegisters := by
  unfold Obligations.HostWritesReachTheWritableRegisters
  intro s r v rest hp
  have truncated : (BitVec.ofNat 32 v).toNat = v % 2 ^ 32 := BitVec.toNat_ofNat v 32
  refine ⟨?_, ?_, ?_, ?_, ?_, ?_⟩
  · rintro rfl
    exact step_writeReg hp (by decide)
  · rintro rfl
    exact step_writeReg hp (by decide)
  · rintro rfl hv
    rw [step_writeReg hp (by decide), writeReg, writeIbufLen_fits (truncated ▸ hv)]
    rfl
  · rintro rfl hv
    rw [step_writeReg hp (by decide), writeReg, writeIbufLen_ignored (truncated ▸ hv)]
    rfl
  · rintro rfl hv
    rw [step_writeReg hp (by decide), writeReg, writePbufLen_fits (truncated ▸ hv)]
    rfl
  · rintro rfl hv
    rw [step_writeReg hp (by decide), writeReg, writePbufLen_ignored (truncated ▸ hv)]
    rfl

/-- R37, R38: the registers that ignore a write. -/
theorem writeReg_ignored {r : Nat} (v : Nat) (hr : r ∉ [3, 4, 5, 7]) : writeReg r v s = s := by
  simp only [List.mem_cons, List.not_mem_nil, or_false, not_or] at hr
  obtain ⟨h3, h4, h5, h7⟩ := hr
  unfold writeReg
  split
  · contradiction
  · contradiction
  · contradiction
  · contradiction
  · rfl

/-! ### Reads -/

/-- R67: a register read answers and changes nothing else. -/
theorem step_readReg {r : Nat} (hp : s.pending = .readReg r :: rest) :
    step s = .next (answer (readReg s r) (takeAccess rest s)) :=
  step_of_accesses hp rfl

/-- R37: a reserved number reads 0. -/
theorem readReg_reserved {r : Nat} (hr : 11 ≤ r) : readReg s r = 0#64 := by
  obtain ⟨k, rfl⟩ := Nat.exists_eq_add_of_le' hr
  rfl

/-- A register that holds a number below `2^n` reads 0 from bit `n` on. -/
theorem getLsbD_setWidth_of_lt {w n k : Nat} {x : BitVec w} (m : Nat) (hx : x.toNat < 2 ^ n) (hk : n ≤ k) :
    (x.setWidth m).getLsbD k = false := by
  have hbit : x.getLsbD k = false := Nat.testBit_lt_two_pow (hx.trans_le (Nat.pow_le_pow_right (by decide) hk))
  simp [BitVec.getLsbD_setWidth, hbit]

/-- R27: a reachable STATUS has five bits. -/
theorem toNat_lt_of_statusLegal {v : BitVec 16} (h : statusLegal v) : v.toNat < 2 ^ 5 := by
  unfold statusLegal at h
  omega

/-- Settles O11: such a write changes nothing, a reserved number reads 0, and the reserved bits are the ones the invariant
bounds. -/
theorem writesToReadOnlyAndReservedRegistersAreIgnored :
    Obligations.WritesToReadOnlyAndReservedRegistersAreIgnored := by
  unfold Obligations.WritesToReadOnlyAndReservedRegistersAreIgnored
  refine ⟨fun s r v rest hp hr => ?_, fun s r rest hp hr => ?_, fun s h => ⟨fun k hk => ?_, fun k hk => ?_, fun k hk => ?_⟩⟩
  · have hne : r ≠ 0 ∧ r ∉ [3, 4, 5, 7] := by
      simp only [List.mem_cons, List.not_mem_nil, or_false] at hr ⊢
      omega
    rw [step_writeReg hp hne.1, writeReg_ignored v hne.2]
    rfl
  · rw [step_readReg hp, readReg_reserved hr]
    rfl
  · exact getLsbD_setWidth_of_lt 64 (toNat_lt_of_statusLegal h.status) hk
  · have hlt : s.nrz.toNat < 2 ^ 2 := h.nrz
    exact getLsbD_setWidth_of_lt 64 hlt hk
  · obtain ⟨hbit7, hlt, -⟩ := h.pm
    rcases hk with rfl | hk
    · rw [readReg, BitVec.getLsbD_setWidth, hbit7, Bool.and_false]
    · exact getLsbD_setWidth_of_lt 64 hlt hk

/-- A register read answers the register's number, whatever the register's width. -/
theorem step_readReg_toNat {r w : Nat} {x : BitVec w} (hp : s.pending = .readReg r :: rest)
    (hx : readReg s r = x.setWidth 64) :
    step s = .next { s with pending := rest, reply := some (BitVec.ofNat 64 x.toNat) } := by
  rw [step_readReg hp, BitVec.ofNat_toNat, ← hx]
  rfl

/-- A bit is answered as its number. -/
theorem bitReply_eq_ofNat (b : Bool) : bitReply b = BitVec.ofNat 64 b.toNat := by cases b <;> rfl

theorem step_readIbuf {i : Nat} (hp : s.pending = .readIbuf i :: rest) :
    step s = .next { s with pending := rest, reply := some (BitVec.ofNat 64 (hostReadIbuf s i).toNat) } := by
  rw [step_of_accesses hp rfl, ← bitReply_eq_ofNat]
  rfl

theorem step_readObuf {i : Nat} (hp : s.pending = .readObuf i :: rest) :
    step s = .next { s with pending := rest, reply := some (BitVec.ofNat 64 (hostReadObuf s i).toNat) } := by
  rw [step_of_accesses hp rfl, ← bitReply_eq_ofNat]
  rfl

theorem step_readPbuf {j : Nat} (hp : s.pending = .readPbuf j :: rest) :
    step s = .next { s with pending := rest, reply := some (BitVec.ofNat 64 (hostReadPbuf s j).toNat) } := by
  rw [step_of_accesses hp rfl, BitVec.ofNat_toNat]
  rfl

/-- Settles O12: a register read is the register zero-extended, a buffer read is the cell or, from the capacity on, 0. -/
theorem hostReadsAnswerAndChangeNothing : Obligations.HostReadsAnswerAndChangeNothing := by
  unfold Obligations.HostReadsAnswerAndChangeNothing
  intro s a rest hp
  dsimp only
  have reg {r w : Nat} {x : BitVec w} (hx : readReg s r = x.setWidth 64) (ha : a = .readReg r) :
      step s = .next { s with pending := rest, reply := some (BitVec.ofNat 64 x.toNat) } :=
    step_readReg_toNat (ha ▸ hp) hx
  have hsrc : readReg s 3 = s.src.setWidth 64 := (BitVec.setWidth_eq s.src).symm
  have htgt : readReg s 4 = s.tgt.setWidth 64 := (BitVec.setWidth_eq s.tgt).symm
  refine ⟨reg rfl, reg rfl, reg rfl, reg hsrc, reg htgt, reg rfl, reg rfl, reg rfl, reg rfl, reg rfl, reg rfl,
    ?_, ?_, ?_, ?_, ?_, ?_⟩
  · rintro i rfl hi
    rw [step_readIbuf hp, hostReadIbuf, if_pos hi]
  · rintro i rfl hi
    rw [step_readIbuf hp, hostReadIbuf, if_neg (Nat.not_lt.2 hi), Bool.toNat_false]
  · rintro i rfl hi
    rw [step_readObuf hp, hostReadObuf, if_pos hi]
  · rintro i rfl hi
    rw [step_readObuf hp, hostReadObuf, if_neg (Nat.not_lt.2 hi), Bool.toNat_false]
  · rintro j rfl hj
    rw [step_readPbuf hp, hostReadPbuf, if_pos hj]
  · rintro j rfl hj
    rw [step_readPbuf hp, hostReadPbuf, if_neg (Nat.not_lt.2 hj), BitVec.toNat_zero]

end Sys2Proof.Machine
end

section
/-! What a command may write and what it may read, for every command at once: the writers of each register and buffer
(spec/10_state.md R26 to R36, spec/20_memory.md R50 to R52), and the registers a command is blind to (R40, R43). -/

namespace Sys2Proof.Machine

variable {s t : State} {i : Instr}

/-! ### Writers -/

/-- What differs between `s` and the state `t` after the command `i` is what `i` writes. -/
structure WritesOnlyItsOwn (i : Instr) (s t : State) : Prop where
  cmd : t.cmd = s.cmd
  own : keepsOwn s t
  res : t.res = s.res ∨ writesRes i = true
  frame : (t.src = s.src ∧ t.tgt = s.tgt ∧ t.pbufLen = s.pbufLen ∧ keepsPbuf s t) ∨ i = .frameSplit ∨ i = .frameDec
  input : (t.ibufLen = s.ibufLen ∧ keepsIbuf s t) ∨ i = .xfer
  output : (t.obufLen = s.obufLen ∧ keepsObuf s t) ∨ isEmitter i = true
  crcAcc : t.crcAcc = s.crcAcc ∨ i = .crcInit ∨ ∃ y, i = .crcByte y
  nrz : t.nrz = s.nrz ∨ (∃ b, i = .nrziSeed b) ∨ (∃ b, i = .nrziEbit b) ∨ ∃ b, i = .nrziDbit b
  pm : t.pm = s.pm ∨ i = .pmReset ∨ ∃ b, i = .pmBit b

/-- No change is a change of nothing. -/
theorem writesOnlyItsOwn_self (i : Instr) (s : State) : WritesOnlyItsOwn i s s where
  cmd := rfl
  own := ⟨rfl, rfl, rfl, rfl⟩
  res := .inl rfl
  frame := .inl ⟨rfl, rfl, rfl, fun _ => rfl⟩
  input := .inl ⟨rfl, fun _ => rfl⟩
  output := .inl ⟨rfl, fun _ => rfl⟩
  crcAcc := .inl rfl
  nrz := .inl rfl
  pm := .inl rfl

/-- Each outcome of `exec_cases` is the state before but for what its commands write. -/
theorem writesOnlyItsOwn_exec (h : exec i s = .next t) : WritesOnlyItsOwn i s t := by
  have same := writesOnlyItsOwn_self i s
  rcases exec_cases h with ⟨e, rfl⟩ | ⟨res, acc, nrz, pm, rfl, hres, hacc, hnrz, hpm⟩ | ⟨out, hi, -, rfl⟩ | ⟨hi, -, rfl⟩ |
    ⟨f, hi, -, rfl⟩
  · exact { same with }
  · exact { same with res := hres, crcAcc := hacc, nrz := hnrz.imp id And.right, pm := hpm.imp id And.right }
  · exact { same with output := .inr hi }
  · exact { same with input := .inr hi }
  · exact { same with frame := .inr hi }

/-- R28: the writers of RES by name. -/
theorem eq_of_writesRes (h : writesRes i = true) :
    (∃ g, i = .lcExp4 g) ∨ (∃ c, i = .lcCon5 c) ∨ (∃ b, i = .nrziEbit b) ∨ (∃ b, i = .nrziDbit b) ∨
      (∃ b, i = .pmBit b) ∨ i = .preMatch ∨ i = .crcFinal ∨ i = .crc32 := by
  cases i <;> simp [writesRes] at h ⊢

/-- R32: the emitters by name. -/
theorem eq_of_isEmitter (h : isEmitter i = true) :
    i = .lcExpand ∨ i = .lcContract ∨ (∃ b, i = .nrziEnc b) ∨ (∃ b, i = .nrziDec b) ∨ i = .preGen ∨
      i = .frameMarshal ∨ i = .frameEnc := by
  cases i <;> simp [isEmitter] at h ⊢

/-- Settles O54: a clause of `WritesOnlyItsOwn` each. -/
theorem registersAreWrittenOnlyByTheirCommands : Obligations.RegistersAreWrittenOnlyByTheirCommands := by
  unfold Obligations.RegistersAreWrittenOnlyByTheirCommands
  intro i s t h
  have w := writesOnlyItsOwn_exec h
  refine ⟨w.cmd, w.own, fun hne => eq_of_writesRes (w.res.resolve_left hne), ?_, ?_, ?_, ?_, ?_, ?_, ?_,
    w.crcAcc.resolve_left, w.nrz.resolve_left, w.pm.resolve_left⟩
  · exact fun hne => w.frame.resolve_left fun ⟨hsrc, _⟩ => hne hsrc
  · exact fun hne => w.frame.resolve_left fun ⟨_, htgt, _⟩ => hne htgt
  · exact fun hne => w.frame.resolve_left fun ⟨_, _, hlen, _⟩ => hne hlen
  · exact fun hne => w.frame.resolve_left fun ⟨_, _, _, hcells⟩ => hne hcells
  · exact fun hne => w.input.resolve_left fun ⟨hlen, _⟩ => hne hlen
  · exact fun hne => w.input.resolve_left fun ⟨_, hcells⟩ => hne hcells
  · exact fun hne => eq_of_isEmitter (w.output.resolve_left fun ⟨hlen, hcells⟩ => hne.elim (· hlen) (· hcells))

/-! ### Two runs

`f` overwrites fields of the state before a command, `g` those of them that the command's end leaves. A command is blind to the
fields when running it after `f` is running it and then applying `g`. -/

/-- Apply `g` to the state a command answers. -/
def mapNext (g : State → State) : Host.Outcome State Fault Refusal → Host.Outcome State Fault Refusal
  | .next t => .next (g t)
  | .fault e => .fault e
  | .refused e => .refused e

/-- The shared ends of the commands are blind to what `f` overwrites. -/
structure EndsAreBlind (f g : State → State) : Prop where
  succeed_eq : ∀ u, succeed (f u) = g (succeed u)
  fail_eq : ∀ e s, fail e (f s) = g (fail e s)
  emit_eq : ∀ s out, emit (f s) out = (emit s out).map f
  fillIbuf_eq : ∀ s x, fillIbuf (f s) x = (fillIbuf s x).map f
  deliver_eq : ∀ s x, deliver (f s) x = (deliver s x).map f

section
variable {f g : State → State}

theorem complete_map (hb : EndsAreBlind f g) (s : State) (r : Except Reason State) :
    complete (f s) (r.map f) = mapNext g (complete s r) := by
  cases r with
  | ok u => exact congrArg Host.Outcome.next (hb.succeed_eq u)
  | error e => exact congrArg Host.Outcome.next (hb.fail_eq e s)

theorem emitResult_map (hb : EndsAreBlind f g) (s : State) (r : Except Reason BitSeq) :
    emitResult (f s) r = mapNext g (emitResult s r) := by
  cases r with
  | ok out => rw [emitResult_ok, emitResult_ok, hb.emit_eq, complete_map hb]
  | error e => exact complete_map hb s (.error e)

theorem deliverResult_map (hb : EndsAreBlind f g) (s : State) (r : Except Reason Frame) :
    deliverResult (f s) r = mapNext g (deliverResult s r) := by
  cases r with
  | ok x => rw [deliverResult_ok, deliverResult_ok, hb.deliver_eq, complete_map hb]
  | error e => exact complete_map hb s (.error e)

end

/-! ### STATUS and CMD -/

/-- STATUS and CMD overwritten. -/
def withStatusCmd (v : BitVec 16) (w : Word) (s : State) : State := { s with status := v, cmd := w }

/-- A command's end writes STATUS, so of the two only CMD's old value is left. -/
theorem endsAreBlind_withStatusCmd (v : BitVec 16) (w : Word) : EndsAreBlind (withStatusCmd v w) (latchCmd w) where
  succeed_eq _ := rfl
  fail_eq _ _ := rfl
  emit_eq _ _ := by rw [emit, emit, apply_ite (Except.map _)]; rfl
  fillIbuf_eq _ _ := by rw [fillIbuf, fillIbuf, apply_ite (Except.map _)]; rfl
  deliver_eq _ _ := by rw [deliver, deliver, fillPbuf, fillPbuf, apply_ite (Except.map _)]; rfl

/-- R26, R40: every command is blind to STATUS and CMD. -/
theorem exec_withStatusCmd (i : Instr) (v : BitVec 16) (w : Word) (s : State) :
    exec i (withStatusCmd v w s) = mapNext (latchCmd w) (exec i s) := by
  have hb := endsAreBlind_withStatusCmd v w
  cases i with
  | lcCon5 c =>
    rw [exec, exec, execLcCon5, execLcCon5, apply_ite (mapNext _)]
    rfl
  | lcExpand => exact emitResult_map hb s _
  | lcContract => exact emitResult_map hb s _
  | nrziEnc b => exact emitResult_map hb s (.ok (toDifferential (ibufSeq s) b))
  | nrziDec b => exact emitResult_map hb s (.ok (fromDifferential (ibufSeq s) b))
  | preGen => exact emitResult_map hb s (.ok preRom)
  | frameMarshal => exact emitResult_map hb s _
  | frameSplit => exact deliverResult_map hb s _
  | frameEnc => exact emitResult_map hb s _
  | frameDec => exact deliverResult_map hb s _
  | xfer =>
    show complete (withStatusCmd v w s) (fillIbuf (withStatusCmd v w s) (obufSeq s)) = _
    rw [hb.fillIbuf_eq]
    exact complete_map hb s _
  | _ => rfl

/-- Settles O52: CMD is not written, and no command sees what `withStatusCmd` overwrites. -/
theorem commandsReadNeitherStatusNorCmd : Obligations.CommandsReadNeitherStatusNorCmd := by
  unfold Obligations.CommandsReadNeitherStatusNorCmd
  intro i s t v w h
  exact ⟨(writesOnlyItsOwn_exec h).cmd, (exec_withStatusCmd i v w s).trans (congrArg (mapNext (latchCmd w)) h)⟩

/-! ### The streaming unit state -/

/-- The streaming unit state overwritten (R43). -/
def withStreaming (acc nrz pm : BitVec 32) (s : State) : State := { s with crcAcc := acc, nrz := nrz, pm := pm }

/-- No command's end touches the streaming unit state. -/
theorem endsAreBlind_withStreaming (acc nrz pm : BitVec 32) :
    EndsAreBlind (withStreaming acc nrz pm) (withStreaming acc nrz pm) where
  succeed_eq _ := rfl
  fail_eq _ _ := rfl
  emit_eq _ _ := by rw [emit, emit, apply_ite (Except.map _)]; rfl
  fillIbuf_eq _ _ := by rw [fillIbuf, fillIbuf, apply_ite (Except.map _)]; rfl
  deliver_eq _ _ := by rw [deliver, deliver, fillPbuf, fillPbuf, apply_ite (Except.map _)]; rfl

/-- R43: the batch commands are blind to the streaming unit state. -/
theorem exec_withStreaming (hi : isBatch i = true) (acc nrz pm : BitVec 32) (s : State) :
    exec i (withStreaming acc nrz pm s) = mapNext (withStreaming acc nrz pm) (exec i s) := by
  have hb := endsAreBlind_withStreaming acc nrz pm
  cases i with
  | lcExpand => exact emitResult_map hb s _
  | lcContract => exact emitResult_map hb s _
  | nrziEnc b => exact emitResult_map hb s (.ok (toDifferential (ibufSeq s) b))
  | nrziDec b => exact emitResult_map hb s (.ok (fromDifferential (ibufSeq s) b))
  | preMatch => rfl
  | crc32 => rfl
  | frameMarshal => exact emitResult_map hb s _
  | frameSplit => exact deliverResult_map hb s _
  | frameEnc => exact emitResult_map hb s _
  | frameDec => exact deliverResult_map hb s _
  | _ => cases hi

/-- R43: the writers of the streaming unit state are no batch commands. -/
theorem streaming_of_exec_batch (hi : isBatch i = true) (h : exec i s = .next t) :
    t.crcAcc = s.crcAcc ∧ t.nrz = s.nrz ∧ t.pm = s.pm := by
  have w := writesOnlyItsOwn_exec h
  refine ⟨w.crcAcc.resolve_right ?_, w.nrz.resolve_right ?_, w.pm.resolve_right ?_⟩
  · rintro (rfl | ⟨y, rfl⟩) <;> cases hi
  · rintro (⟨b, rfl⟩ | ⟨b, rfl⟩ | ⟨b, rfl⟩) <;> cases hi
  · rintro (rfl | ⟨b, rfl⟩) <;> cases hi

/-- Settles O53: the streaming unit state is not written, and no batch command sees it overwritten. -/
theorem batchCommandsIgnoreTheStreamingState : Obligations.BatchCommandsIgnoreTheStreamingState := by
  unfold Obligations.BatchCommandsIgnoreTheStreamingState
  intro i s t acc nrz pm hi h
  obtain ⟨hacc, hnrz, hpm⟩ := streaming_of_exec_batch hi h
  exact ⟨hacc, hnrz, hpm, (exec_withStreaming hi acc nrz pm s).trans (congrArg (mapNext _) h)⟩

end Sys2Proof.Machine
end

section
/-! The cells of the buffers (spec/20_memory.md R50 to R52, R54, R55): what a host write to one of them reaches, and that no
command reads one at or beyond the length register of its buffer. -/

namespace Sys2Proof.Machine

/-! ### One written cell -/

/-- R50: a write to an IBUF cell makes it read the value, and no other cell read otherwise. -/
theorem ibufCell_set (s : State) (i : Nat) (b : Bool) (k : Nat) :
    ibufCell { s with ibuf := Memory.set s.ibuf i b } k = if k = i then b else ibufCell s k := by
  simp only [ibufCell, Memory.get?_set]
  split <;> rfl

/-- R51: the same of OBUF. -/
theorem obufCell_set (s : State) (i : Nat) (b : Bool) (k : Nat) :
    obufCell { s with obuf := Memory.set s.obuf i b } k = if k = i then b else obufCell s k := by
  simp only [obufCell, Memory.get?_set]
  split <;> rfl

/-- R52: the same of PBUF. -/
theorem pbufCell_set (s : State) (j : Nat) (x : Byte) (k : Nat) :
    pbufCell { s with pbuf := Memory.set s.pbuf j x } k = if k = j then x else pbufCell s k := by
  simp only [pbufCell, Memory.get?_set]
  split <;> rfl

/-! ### Host writes to a cell -/

/-- R50, R55: what every IBUF cell reads after a host write to IBUF. -/
theorem ibufCell_hostWriteIbuf (s : State) (i : Nat) (b : Bool) (k : Nat) :
    ibufCell (hostWriteIbuf i b s) k = if k = i ∧ i < s.par.ibufCap then b else ibufCell s k := by
  unfold hostWriteIbuf
  split
  · rename_i hi
    simp only [ibufCell_set, hi, and_true]
  · rename_i hi
    simp only [hi, and_false, if_false]

/-- R52, R55: what every PBUF cell reads after a host write to PBUF. -/
theorem pbufCell_hostWritePbuf (s : State) (j : Nat) (x : Byte) (k : Nat) :
    pbufCell (hostWritePbuf j x s) k = if k = j ∧ j < s.par.pbufCap then x else pbufCell s k := by
  unfold hostWritePbuf
  split
  · rename_i hj
    simp only [pbufCell_set, hj, and_true]
  · rename_i hj
    simp only [hj, and_false, if_false]

/-- R55: a host write to IBUF writes the list of IBUF's cells or nothing. -/
theorem hostWriteIbuf_eq (s : State) (i : Nat) (b : Bool) : ∃ m, hostWriteIbuf i b s = { s with ibuf := m } := by
  unfold hostWriteIbuf
  split
  · exact ⟨_, rfl⟩
  · exact ⟨s.ibuf, rfl⟩

/-- R55: a host write to PBUF writes the list of PBUF's cells or nothing. -/
theorem hostWritePbuf_eq (s : State) (j : Nat) (x : Byte) : ∃ m, hostWritePbuf j x s = { s with pbuf := m } := by
  unfold hostWritePbuf
  split
  · exact ⟨_, rfl⟩
  · exact ⟨s.pbuf, rfl⟩

/-- Settles O13: the step is the host write, whose cells are known and which keeps every other field. -/
theorem hostBufferWritesReachOneCell : Obligations.HostBufferWritesReachOneCell := by
  unfold Obligations.HostBufferWritesReachOneCell
  refine ⟨fun s i b rest hp => ?_, fun s j x rest hp => ?_⟩
  · have cells := ibufCell_hostWriteIbuf (takeAccess rest s) i b
    obtain ⟨m, hm⟩ := hostWriteIbuf_eq (takeAccess rest s) i b
    refine ⟨_, step_of_accesses hp rfl, cells, ?_⟩
    rw [access, hm]
    exact ⟨fun _ _ => rfl, fun _ => rfl, fun _ => rfl, rfl, rfl, rfl, rfl⟩
  · have cells := pbufCell_hostWritePbuf (takeAccess rest s) j x
    obtain ⟨m, hm⟩ := hostWritePbuf_eq (takeAccess rest s) j x
    refine ⟨_, step_of_accesses hp rfl, cells, ?_⟩
    rw [access, hm]
    exact ⟨fun _ _ => rfl, fun _ => rfl, fun _ => rfl, rfl, rfl, rfl, rfl⟩

/-! ### The same run of writes in two states -/

section
variable {s u s' u' : State} {j : Nat}

/-- R56: a cell that agrees still does after both states wrote the same run: it is in the run, or as before. -/
theorem ibufCell_writeFrom_congr {x : BitSeq} (h : ibufCell u j = ibufCell s j)
    (hs : s'.ibuf = Memory.writeFrom s.ibuf 0 x) (hu : u'.ibuf = Memory.writeFrom u.ibuf 0 x)
    (hse : s'.resetEpoch = s.resetEpoch) (hue : u'.resetEpoch = u.resetEpoch) : ibufCell u' j = ibufCell s' j := by
  rw [ibufCell_writeFrom u x u' hu hue, ibufCell_writeFrom s x s' hs hse, h]

theorem obufCell_writeFrom_congr {out : BitSeq} (h : obufCell u j = obufCell s j)
    (hs : s'.obuf = Memory.writeFrom s.obuf 0 out) (hu : u'.obuf = Memory.writeFrom u.obuf 0 out)
    (hse : s'.resetEpoch = s.resetEpoch) (hue : u'.resetEpoch = u.resetEpoch) : obufCell u' j = obufCell s' j := by
  rw [obufCell_writeFrom u out u' hu hue, obufCell_writeFrom s out s' hs hse, h]

theorem pbufCell_writeFrom_congr {p : List Byte} (h : pbufCell u j = pbufCell s j)
    (hs : s'.pbuf = Memory.writeFrom s.pbuf 0 p) (hu : u'.pbuf = Memory.writeFrom u.pbuf 0 p)
    (hse : s'.resetEpoch = s.resetEpoch) (hue : u'.resetEpoch = u.resetEpoch) : pbufCell u' j = pbufCell s' j := by
  rw [pbufCell_writeFrom u p u' hu hue, pbufCell_writeFrom s p s' hs hse, h]

end

/-! ### Two states that differ in cells alone

A command reads the buffers through IBUF_SEQ, OBUF_SEQ and PBUF_SEQ, so two states that agree on all else and on the cells
below the lengths end it alike, and every cell that agreed before agrees after. -/

/-- The buffers of `v` in place of those of `s`. -/
def withBuffersOf (v s : State) : State := { s with ibuf := v.ibuf, obuf := v.obuf, pbuf := v.pbuf }

@[simp] theorem withBuffersOf_par (v s : State) : (withBuffersOf v s).par = s.par := rfl

/-- `u` is `s` but for cells of the buffers, and reads as `s` at the IBUF, OBUF and PBUF cells that `I`, `O` and `P` hold of. -/
structure AgreesOn (I O P : Nat → Prop) (s u : State) : Prop where
  fields : u = withBuffersOf u s
  ibuf : ∀ j, I j → ibufCell u j = ibufCell s j
  obuf : ∀ j, O j → obufCell u j = obufCell s j
  pbuf : ∀ j, P j → pbufCell u j = pbufCell s j

/-- Both commands answered a next state, and the two states agree. -/
def NextAgree (I O P : Nat → Prop) : Host.Outcome State Fault Refusal → Host.Outcome State Fault Refusal → Prop
  | .next t, .next v => AgreesOn I O P t v
  | _, _ => False

theorem exists_of_nextAgree {I O P : Nat → Prop} {t : State} {a : Host.Outcome State Fault Refusal}
    (h : NextAgree I O P (.next t) a) : ∃ v, a = .next v ∧ AgreesOn I O P t v := by
  cases a with
  | next v => exact ⟨v, rfl, h⟩
  | fault e => exact h.elim
  | refused e => exact h.elim

section
variable {I O P : Nat → Prop} {s u : State}

theorem AgreesOn.keepsRegs (h : AgreesOn I O P s u) : keepsRegs [] s u := by
  intro r _
  rw [h.fields]
  rfl

theorem AgreesOn.keepsOwn (h : AgreesOn I O P s u) : keepsOwn s u := by
  rw [h.fields]
  exact ⟨rfl, rfl, rfl, rfl⟩

theorem AgreesOn.fail (h : AgreesOn I O P s u) (e : Reason) : AgreesOn I O P (fail e s) (fail e u) :=
  { h with fields := congrArg (Machine.fail e) h.fields }

/-- The scalar registers a command can write, given the same values. -/
theorem AgreesOn.scalar (h : AgreesOn I O P s u) (res acc nrz pm : BitVec 32) :
    AgreesOn I O P (succeed { s with res := res, crcAcc := acc, nrz := nrz, pm := pm })
      (succeed { u with res := res, crcAcc := acc, nrz := nrz, pm := pm }) :=
  { h with fields := congrArg (fun w => succeed { w with res := res, crcAcc := acc, nrz := nrz, pm := pm }) h.fields }

/-- R56: the same emission: a cell it writes agrees, and any other as before. -/
theorem nextAgree_emitResult (h : AgreesOn I O P s u) (r : Except Reason BitSeq) :
    NextAgree I O P (emitResult s r) (emitResult u r) := by
  obtain ⟨hpar, -, -, -⟩ := h.keepsOwn
  cases r with
  | error e => exact h.fail e
  | ok out =>
    rcases Nat.lt_or_ge s.par.obufCap out.length with hlt | hge
    · rw [emitResult_ok, emitResult_ok, emit_overflows hlt, emit_overflows (hpar ▸ hlt)]
      exact h.fail _
    · rw [emitResult_ok, emitResult_ok, emit_fits hge, emit_fits (hpar ▸ hge)]
      exact { h with
        fields := congrArg (fun w => succeed { w with
          obuf := Memory.writeFrom u.obuf 0 out, obufLen := BitVec.ofNat 32 out.length }) h.fields
        obuf := fun j hj => obufCell_writeFrom_congr (h.obuf j hj) rfl rfl rfl rfl }

/-- R171: the same fill of IBUF. -/
theorem nextAgree_fillIbuf (h : AgreesOn I O P s u) (x : BitSeq) :
    NextAgree I O P (complete s (fillIbuf s x)) (complete u (fillIbuf u x)) := by
  obtain ⟨hpar, -, -, -⟩ := h.keepsOwn
  rcases Nat.lt_or_ge s.par.ibufCap x.length with hlt | hge
  · rw [fillIbuf_overflows hlt, fillIbuf_overflows (hpar ▸ hlt)]
    exact h.fail _
  · rw [fillIbuf_fits hge, fillIbuf_fits (hpar ▸ hge)]
    exact { h with
      fields := congrArg (fun w => succeed { w with
        ibuf := Memory.writeFrom u.ibuf 0 x, ibufLen := BitVec.ofNat 32 x.length }) h.fields
      ibuf := fun j hj => ibufCell_writeFrom_congr (h.ibuf j hj) rfl rfl rfl rfl }

/-- R155, R157: the same delivery. -/
theorem nextAgree_deliverResult (h : AgreesOn I O P s u) (r : Except Reason Frame) :
    NextAgree I O P (deliverResult s r) (deliverResult u r) := by
  obtain ⟨hpar, -, -, -⟩ := h.keepsOwn
  cases r with
  | error e => exact h.fail e
  | ok f =>
    rcases Nat.lt_or_ge s.par.pbufCap f.payload.length with hlt | hge
    · rw [deliverResult_ok, deliverResult_ok, deliver_overflows hlt, deliver_overflows (hpar ▸ hlt)]
      exact h.fail _
    · rw [deliverResult_ok, deliverResult_ok, deliver_fits hge, deliver_fits (hpar ▸ hge)]
      exact { h with
        fields := congrArg (fun w => succeed { w with
          src := BitVec.ofNat 64 f.src
          tgt := BitVec.ofNat 64 f.tgt
          pbuf := Memory.writeFrom u.pbuf 0 f.payload
          pbufLen := BitVec.ofNat 32 f.payload.length }) h.fields
        pbuf := fun j hj => pbufCell_writeFrom_congr (h.pbuf j hj) rfl rfl rfl rfl }

/-- R22, R54: a command that starts from two states that agree below the lengths ends in two states that agree where they
did before. -/
theorem nextAgree_exec (h : AgreesOn I O P s u) (hI : ∀ j < s.ibufLen.toNat, I j) (hO : ∀ j < s.obufLen.toNat, O j)
    (hP : ∀ j < s.pbufLen.toNat, P j) (i : Instr) : NextAgree I O P (exec i s) (exec i u) := by
  obtain ⟨v, rfl⟩ : ∃ v, u = withBuffersOf v s := ⟨u, h.fields⟩
  have hibuf : ibufSeq (withBuffersOf v s) = ibufSeq s := ibufSeq_congr rfl fun j hj => h.ibuf j (hI j hj)
  have hobuf : obufSeq (withBuffersOf v s) = obufSeq s := obufSeq_congr rfl fun j hj => h.obuf j (hO j hj)
  have hpbuf : pbufSeq (withBuffersOf v s) = pbufSeq s := pbufSeq_congr rfl fun j hj => h.pbuf j (hP j hj)
  cases i with
  | lcCon5 c =>
    by_cases hv : (lcCon s.par.lcTable c).valid = true
    · simp only [exec, execLcCon5, withBuffersOf_par, hv]
      exact h.scalar _ _ _ _
    · simp only [exec, execLcCon5, withBuffersOf_par, hv]
      exact h.fail _
  | lcExpand =>
    rw [exec, exec, execLcExpand, execLcExpand, hibuf]
    exact nextAgree_emitResult h _
  | lcContract =>
    rw [exec, exec, execLcContract, execLcContract, hibuf]
    exact nextAgree_emitResult h _
  | nrziEnc b =>
    rw [exec, exec, execNrziEnc, execNrziEnc, hibuf]
    exact nextAgree_emitResult h _
  | nrziDec b =>
    rw [exec, exec, execNrziDec, execNrziDec, hibuf]
    exact nextAgree_emitResult h _
  | preGen => exact nextAgree_emitResult h (.ok preRom)
  | preMatch =>
    rw [exec, exec, execPreMatch, execPreMatch, hibuf]
    exact h.scalar _ _ _ _
  | crc32 =>
    rw [exec, exec, execCrc32, execCrc32, hpbuf]
    exact h.scalar _ _ _ _
  | frameMarshal =>
    rw [exec, exec, execFrameMarshal, execFrameMarshal, hpbuf]
    exact nextAgree_emitResult h _
  | frameSplit =>
    rw [exec, exec, execFrameSplit, execFrameSplit, hibuf]
    exact nextAgree_deliverResult h _
  | frameEnc =>
    rw [exec, exec, execFrameEnc, execFrameEnc, hpbuf]
    exact nextAgree_emitResult h _
  | frameDec =>
    rw [exec, exec, execFrameDec, execFrameDec, hibuf]
    exact nextAgree_deliverResult h _
  | xfer =>
    rw [exec, exec, execXfer, execXfer, hobuf]
    exact nextAgree_fillIbuf h _
  | _ => exact h.scalar _ _ _ _

end

/-! ### A cell at or beyond the length -/

/-- One IBUF cell overwritten. -/
theorem agreesOn_setIbuf (s : State) (k : Nat) (b : Bool) :
    AgreesOn (· ≠ k) (fun _ => True) (fun _ => True) s { s with ibuf := Memory.set s.ibuf k b } where
  fields := rfl
  ibuf j hj := (ibufCell_set s k b j).trans (if_neg hj)
  obuf _ _ := rfl
  pbuf _ _ := rfl

/-- One OBUF cell overwritten. -/
theorem agreesOn_setObuf (s : State) (k : Nat) (b : Bool) :
    AgreesOn (fun _ => True) (· ≠ k) (fun _ => True) s { s with obuf := Memory.set s.obuf k b } where
  fields := rfl
  ibuf _ _ := rfl
  obuf j hj := (obufCell_set s k b j).trans (if_neg hj)
  pbuf _ _ := rfl

/-- One PBUF cell overwritten. -/
theorem agreesOn_setPbuf (s : State) (k : Nat) (x : Byte) :
    AgreesOn (fun _ => True) (fun _ => True) (· ≠ k) s { s with pbuf := Memory.set s.pbuf k x } where
  fields := rfl
  ibuf _ _ := rfl
  obuf _ _ := rfl
  pbuf j hj := (pbufCell_set s k x j).trans (if_neg hj)

/-- Settles O55: the overwritten state agrees with `s` but at the cell `k`, which is not below the length. -/
theorem cellsBeyondTheLengthAreNeverRead : Obligations.CellsBeyondTheLengthAreNeverRead := by
  unfold Obligations.CellsBeyondTheLengthAreNeverRead
  intro i s t k ht
  have below {n : Nat} (hk : n ≤ k) : ∀ j < n, j ≠ k := fun j hj => (hj.trans_le hk).ne
  have any {n : Nat} : ∀ j < n, True := fun _ _ => trivial
  refine ⟨fun b hk => ?_, fun b hk => ?_, fun x hk => ?_⟩
  · have hu := nextAgree_exec (agreesOn_setIbuf s k b) (below hk) any any i
    obtain ⟨u, hu, agree⟩ := exists_of_nextAgree (ht ▸ hu)
    exact ⟨u, hu, agree.keepsRegs, agree.ibuf, fun j => agree.obuf j trivial, fun j => agree.pbuf j trivial, agree.keepsOwn⟩
  · have hu := nextAgree_exec (agreesOn_setObuf s k b) any (below hk) any i
    obtain ⟨u, hu, agree⟩ := exists_of_nextAgree (ht ▸ hu)
    exact ⟨u, hu, agree.keepsRegs, fun j => agree.ibuf j trivial, agree.obuf, fun j => agree.pbuf j trivial, agree.keepsOwn⟩
  · have hu := nextAgree_exec (agreesOn_setPbuf s k x) any any (below hk) i
    obtain ⟨u, hu, agree⟩ := exists_of_nextAgree (ht ▸ hu)
    exact ⟨u, hu, agree.keepsRegs, fun j => agree.ibuf j trivial, fun j => agree.obuf j trivial, agree.pbuf, agree.keepsOwn⟩

end Sys2Proof.Machine
end

section
/-! The command words (spec/30_encoding.md R92 to R95): the three fields of a word against the word, what each operand class
accepts, the opcode map read in both directions, and the words it accepts. -/

namespace Sys2Proof

/-! ### The fields of a word -/

/-- R92: the word as a number. -/
theorem toWord_toNat (c : CmdWord) :
    c.toWord.toNat = c.opc.toNat + 256 * (c.imm8.toNat + 256 * c.rsvd.toNat) := by
  have ho := c.opc.isLt
  have hi := c.imm8.isLt
  simp only [CmdWord.toWord, BitVec.toNat_append]
  rw [← Nat.shiftLeft_add_eq_or_of_lt hi, ← Nat.shiftLeft_add_eq_or_of_lt ho, Nat.shiftLeft_eq, Nat.shiftLeft_eq]
  omega

/-- R92: the fields of a word made of fields. -/
@[simp] theorem ofWord_toWord (c : CmdWord) : CmdWord.ofWord c.toWord = c := by
  have hopc : (CmdWord.ofWord c.toWord).opc = c.opc := BitVec.eq_of_toNat_eq (by
    rw [ofWord_opc_toNat, toWord_toNat]; omega)
  have himm : (CmdWord.ofWord c.toWord).imm8 = c.imm8 := BitVec.eq_of_toNat_eq (by
    rw [ofWord_imm8_toNat, toWord_toNat]; omega)
  have hrsvd : (CmdWord.ofWord c.toWord).rsvd = c.rsvd := BitVec.eq_of_toNat_eq (by
    rw [ofWord_rsvd_toNat, toWord_toNat]; omega)
  exact congr (congr (congrArg CmdWord.mk hopc) himm) hrsvd

/-- R92: the three fields make up the whole word. -/
@[simp] theorem toWord_ofWord (w : Word) : (CmdWord.ofWord w).toWord = w := by
  refine BitVec.eq_of_toNat_eq ?_
  rw [toWord_toNat, ofWord_opc_toNat, ofWord_imm8_toNat, ofWord_rsvd_toNat]
  omega

/-! ### The operand classes -/

variable {α : Type} {opc imm : BitVec 8} {i j : Instr}

/-- A class checks IMM8 and extracts the operand. Where that inverts the operand's encoding `enc`, the class accepts the
encoded operands alone. -/
theorem operand_eq_ok {legal : BitVec 8 → Bool} {operand : BitVec 8 → α} {enc : α → BitVec 8} {f : α → Instr}
    (hdec : ∀ imm, legal imm = true → enc (operand imm) = imm)
    (henc : ∀ a, legal (enc a) = true ∧ operand (enc a) = a) :
    (if legal imm then Except.ok (f (operand imm)) else .error Illegal.immOutsideClass) = .ok j ↔
      ∃ a, imm = enc a ∧ f a = j := by
  constructor
  · intro h
    split at h
    · rename_i hl
      exact ⟨operand imm, (hdec imm hl).symm, Except.ok.inj h⟩
    · cases h
  · rintro ⟨a, rfl, rfl⟩
    rw [if_pos (henc a).1, (henc a).2]

/-- R93: what class N accepts; its operand, of type `Unit`, makes the arms of the opcode map alike. -/
theorem classN_eq_ok : classN imm i = .ok j ↔ ∃ _ : Unit, imm = 0#8 ∧ i = j :=
  operand_eq_ok (f := fun _ : Unit => i) (operand := fun _ => ()) (by decide) (by decide)

/-- R93: what class S accepts. -/
theorem classS_eq_ok {f : Bool → Instr} :
    classS imm f = .ok j ↔ ∃ b, imm = (BitVec.ofBool b).setWidth 8 ∧ f b = j :=
  operand_eq_ok (legal := OpClass.s.immLegal) (operand := fun imm => imm.getLsbD 0)
    (enc := fun b => (BitVec.ofBool b).setWidth 8) (by decide) (by decide)

/-- R93: what class G accepts. -/
theorem classG_eq_ok {f : Group → Instr} :
    classG imm f = .ok j ↔ ∃ g : Group, imm = g.setWidth 8 ∧ f g = j :=
  operand_eq_ok (by decide) (by decide)

/-- R93: what class C accepts. -/
theorem classC_eq_ok {f : Codeword → Instr} :
    classC imm f = .ok j ↔ ∃ c : Codeword, imm = c.setWidth 8 ∧ f c = j :=
  operand_eq_ok (by decide) (by decide)

/-- R93: what class Y accepts. -/
theorem classY_eq_ok {f : Byte → Instr} : classY imm f = .ok j ↔ ∃ y, imm = y ∧ f y = j := by
  simp [classY]

/-! ### The opcode map -/

/-- R94: the map gives a command back from its own fields. -/
theorem decodeOpc_encodeFields (i : Instr) : decodeOpc (encodeFields i).opc (encodeFields i).imm8 = .ok i := by
  cases i
  case lcExp4 g => exact classG_eq_ok.2 ⟨g, rfl, rfl⟩
  case lcCon5 c => exact classC_eq_ok.2 ⟨c, rfl, rfl⟩
  case nrziSeed b | nrziEbit b | nrziDbit b | nrziEnc b | nrziDec b | pmBit b => exact classS_eq_ok.2 ⟨b, rfl, rfl⟩
  all_goals rfl

/-- One arm of the map: the opcode is the arm's, and the operand is one that its class accepts. -/
theorem encodeFields_of_operand {k : Nat} {enc : α → BitVec 8} {f : α → Instr} (hopc : opc.toNat = k)
    (h : ∃ a, imm = enc a ∧ f a = j) (hf : ∀ a, encodeFields (f a) = ⟨BitVec.ofNat 8 k, enc a, 0#16⟩) :
    encodeFields j = ⟨opc, imm, 0#16⟩ := by
  obtain ⟨a, rfl, rfl⟩ := h
  rw [hf, ← hopc, BitVec.ofNat_toNat, BitVec.setWidth_eq]

/-- R94: the map accepts no other fields than the command's own. -/
theorem encodeFields_of_decodeOpc (h : decodeOpc opc imm = .ok i) : encodeFields i = ⟨opc, imm, 0#16⟩ := by
  unfold decodeOpc at h
  split at h -- the 23 arms by their classes: G, C, S, Y, no arm, N
  case h_2 => exact encodeFields_of_operand ‹_› (classG_eq_ok.1 h) fun _ => rfl
  case h_3 => exact encodeFields_of_operand ‹_› (classC_eq_ok.1 h) fun _ => rfl
  case h_6 | h_7 | h_8 | h_9 | h_10 | h_14 => exact encodeFields_of_operand ‹_› (classS_eq_ok.1 h) fun _ => rfl
  case h_16 => exact encodeFields_of_operand ‹_› (classY_eq_ok.1 h) fun _ => rfl
  case h_24 => cases h
  all_goals exact encodeFields_of_operand ‹_› (classN_eq_ok.1 h) fun _ => rfl

/-! ### The decoder -/

/-- R95: a command is decoded by the opcode map, from the words with RSVD = 0. -/
theorem decode_eq_ok_iff_decodeOpc {w : Word} : decode w = .ok i ↔
    (CmdWord.ofWord w).rsvd = 0#16 ∧ decodeOpc (CmdWord.ofWord w).opc (CmdWord.ofWord w).imm8 = .ok i := by
  by_cases hr : (CmdWord.ofWord w).rsvd = 0#16 <;> simp [decode, CmdWord.rsvdOk, hr]

/-- R94: RSVD of a command's word. -/
theorem encodeFields_rsvd (i : Instr) : (encodeFields i).rsvd = 0#16 := by cases i <;> rfl

/-- R92 to R95: a word decodes to a command exactly when it is the command's word. -/
theorem decode_eq_ok_iff_encode {w : Word} : decode w = .ok i ↔ encode i = w := by
  rw [decode_eq_ok_iff_decodeOpc]
  constructor
  · rintro ⟨hr, h⟩
    rw [encode, encodeFields_of_decodeOpc h, ← hr]
    exact toWord_ofWord w
  · rintro rfl
    rw [encode, ofWord_toWord]
    exact ⟨encodeFields_rsvd i, decodeOpc_encodeFields i⟩

/-- Settles O2: `decode_eq_ok_iff_encode` at the command's own word. -/
theorem decodeOfEncodeIsTheCommand : Obligations.DecodeOfEncodeIsTheCommand := by
  unfold Obligations.DecodeOfEncodeIsTheCommand
  intro i
  exact decode_eq_ok_iff_encode.2 rfl

/-- Settles O3: the other direction of `decode_eq_ok_iff_encode`. -/
theorem encodeOfDecodeIsTheWord : Obligations.EncodeOfDecodeIsTheWord := by
  unfold Obligations.EncodeOfDecodeIsTheWord
  intro w i h
  exact decode_eq_ok_iff_encode.1 h

/-! ### The legal words -/

/-- R93: the values of IMM8 that a class admits are those below this bound. -/
def OpClass.bound : OpClass → Nat
  | .n => 1
  | .s => 2
  | .g => 16
  | .c => 32
  | .y => 256

/-- R93: legality of IMM8 is a bound. -/
theorem immLegal_iff (k : OpClass) (imm : BitVec 8) : k.immLegal imm = true ↔ imm.toNat < k.bound := by
  cases k with
  | n => simp [immLegal_n, OpClass.bound]
  | s => simp [immLegal_s, OpClass.bound]
  | g => simp [immLegal_g, OpClass.bound]
  | c => simp [immLegal_c, OpClass.bound]
  | y => simpa [OpClass.immLegal, OpClass.bound] using imm.isLt

/-- A class's check succeeds exactly on the immediates the class admits. -/
theorem exists_ok_iff_immLegal (k : OpClass) :
    (∃ j, (if k.immLegal imm then Except.ok i else .error Illegal.immOutsideClass) = .ok j) ↔ k.immLegal imm = true := by
  by_cases h : k.immLegal imm = true <;> simp [h]

/-- R94, R95: the opcode map accepts the assigned opcodes with the immediates of their classes. -/
theorem exists_decodeOpc_eq_ok :
    (∃ i, decodeOpc opc imm = .ok i) ↔ ∃ k, opClass opc = some k ∧ k.immLegal imm = true := by
  unfold decodeOpc
  split <;> rename_i hopc
  case h_24 => simp [opClass]
  all_goals simp only [opClass, hopc, Option.some.injEq, exists_eq_left']
  case h_16 => exact ⟨fun _ => rfl, fun _ => ⟨_, rfl⟩⟩
  all_goals exact exists_ok_iff_immLegal _

/-- R93 to R95: a word is legal when all that stands above OPC is below the bound of the opcode's class. -/
theorem legalWord_iff (w : Word) :
    Machine.legalWord w ↔ ∃ k, opClass (CmdWord.ofWord w).opc = some k ∧ w.toNat / 256 < k.bound := by
  rw [opClass, ofWord_opc_toNat]
  split
  case h_24 =>
    simp only [imp_false] at *
    simp [Machine.legalWord, *]
  all_goals simp [Machine.legalWord, OpClass.bound, *]

/-- R93, R95: above OPC stands a number below a class's bound exactly when RSVD is 0 and IMM8 is legal for the class. -/
theorem above_lt_bound_iff (k : OpClass) (w : Word) : w.toNat / 256 < k.bound ↔
    (CmdWord.ofWord w).rsvd = 0#16 ∧ k.immLegal (CmdWord.ofWord w).imm8 = true := by
  have hk : k.bound ≤ 256 := by cases k <;> decide
  rw [immLegal_iff, ofWord_imm8_toNat, ← BitVec.toNat_inj, ofWord_rsvd_toNat, BitVec.toNat_ofNat]
  omega

/-- R95: the decoder accepts a word when OPC is assigned and what stands above it is below the bound of its class. -/
theorem exists_decode_eq_ok (w : Word) :
    (∃ i, decode w = .ok i) ↔ ∃ k, opClass (CmdWord.ofWord w).opc = some k ∧ w.toNat / 256 < k.bound := by
  simp only [decode_eq_ok_iff_decodeOpc, exists_and_left, exists_decodeOpc_eq_ok, above_lt_bound_iff, and_left_comm]

/-- Settles O4: both sides bound what stands above OPC by the class of OPC. -/
theorem decodeAcceptsExactlyTheLegalWords : Obligations.DecodeAcceptsExactlyTheLegalWords := by
  unfold Obligations.DecodeAcceptsExactlyTheLegalWords
  intro w
  exact (exists_decode_eq_ok w).trans (legalWord_iff w).symm

/-- Settles O1: each word is evaluated. -/
theorem sampleWordsDecode : Obligations.SampleWordsDecode := by
  unfold Obligations.SampleWordsDecode
  and_intros <;> rfl

namespace Machine

/-- R95: what an illegal word executes as. -/
theorem issue_of_not_legalWord {w : Word} (hw : ¬ legalWord w) (s : State) :
    issue w s = .next { s with cmd := w, status := 0x0016#16 } := by
  cases hd : decode w with
  | ok i => exact absurd ((decodeAcceptsExactlyTheLegalWords w).1 ⟨i, hd⟩) hw
  | error e =>
    rw [issue, hd]
    rfl

/-- Settles O5: the failure of an illegal word, and O4 for the legal ones. -/
theorem illegalWordsFailAndEveryOtherWordIsACommand : Obligations.IllegalWordsFailAndEveryOtherWordIsACommand := by
  unfold Obligations.IllegalWordsFailAndEveryOtherWordIsACommand
  constructor
  · intro s v rest hp hw
    rw [step_of_issues hp rfl, issue_of_not_legalWord hw]
    rfl
  · intro w hw
    exact (decodeAcceptsExactlyTheLegalWords w).2 hw

end Machine

end Sys2Proof
end

section
/-! The frames at their positions (spec/30_encoding.md R87 to R90): the raw frame, and what the line code, the NRZI encoder and the
preamble make of it. -/

namespace Sys2Proof.Machine

/-- Settles O40: `raw_fields` at the frame that `marshal` builds, each field in the range of its `intToBits`. -/
theorem rawFrameLayout : Obligations.RawFrameLayout := by
  unfold Obligations.RawFrameLayout
  intro src tgt p hsrc htgt hp
  obtain ⟨hlen, h0, h48, h96, h112, hcrc, hhead⟩ :=
    raw_fields tgt src p.length p (crc32 (bytesOf (rawHead src tgt p)))
  rw [← rawHead] at hlen h0 h48 h96 hcrc hhead h112
  refine ⟨_, marshal_ok hsrc htgt hp, hlen, ?_, ?_, ?_, h112.symm, ?_⟩
  · rw [h0]
    exact intToBits_of_lt htgt
  · rw [h48]
    exact intToBits_of_lt hsrc
  · rw [h96]
    exact intToBits_of_lt (n := 2) (by omega)
  · rw [hhead, hcrc]
    exact intToBits_of_lt (n := 4) (BitVec.isLt _)

/-- R151: the transmittable frame is the preamble and the differentially-coded frame. -/
theorem encodeFrame_of_ok {table : Vector Codeword 16} {src tgt : Nat} {p : List Byte} {raw lc : BitSeq}
    (hraw : marshal src tgt p = .ok raw) (hlc : changeCoding raw (expand table) 4 = .ok lc) :
    encodeFrame table src tgt p = .ok (preRom ++ toDifferential lc true) := by
  simp only [encodeFrame, hraw, hlc]
  rfl

/-- Settles O41: `expand_slices` on the raw frame, whose length is a multiple of 4. -/
theorem transmittableFrameLayout : Obligations.TransmittableFrameLayout := by
  unfold Obligations.TransmittableFrameLayout
  intro table src tgt p hsrc htgt hp
  obtain ⟨raw, hraw, hlen, -⟩ := rawFrameLayout src tgt p hsrc htgt hp
  obtain ⟨lc, hlc, hlcLen, hslices⟩ := expand_slices table (s := raw) (by omega)
  have hdiff : (toDifferential lc true).length = 180 + 10 * p.length := by
    rw [toDifferential_length]
    omega
  refine ⟨raw, lc, _, hraw, hlc, by omega, hslices, toDifferential_length lc true, encodeFrame_of_ok hraw hlc, ?_, ?_, ?_⟩
  · rw [List.length_append, preRom_length, hdiff]
    omega
  · rw [slice_append_left preRom_length.ge, slice_full preRom_length.symm]
  · rw [slice_append_right preRom_length.le, preRom_length, slice_full (by omega)]

end Sys2Proof.Machine
end

section
/-! The line code (spec/40_line_coding.md R101, R106 to R109): the ROM LC_CON against LC_EXP, and the four commands of LCU, each
with its encoding. -/

namespace Sys2Proof.Machine

/-! ### The two ROMs -/

section

variable {table : Vector Codeword 16}

/-- R101: the codewords with a valid entry are the image of LC_EXP. -/
theorem lcCon_valid_iff {c : Codeword} : (lcCon table c).valid = true ↔ ∃ g, lcExp table g = c := by
  constructor
  · exact fun h => ⟨_, lcExp_of_valid h⟩
  · rintro ⟨g, rfl⟩
    exact valid_of_image g

/-- R101: LC_CON inverts LC_EXP. -/
theorem lcCon_lcExp (ht : injectiveTable table) (g : Group) : lcCon table (lcExp table g) = ⟨true, g⟩ := by
  have hvalid : (lcCon table (lcExp table g)).valid = true := valid_of_image g
  have hgroup : (lcCon table (lcExp table g)).group = g := ht _ _ (lcExp_of_valid hvalid)
  exact congr (congrArg ConEntry.mk hvalid) hgroup

/-- R101: listed as numbers, the codewords with a valid entry are those of the sixteen groups. -/
theorem validCodewords_perm (ht : injectiveTable table) :
    ((List.range 32).filter fun c => (lcCon table (BitVec.ofNat 5 c)).valid).Perm
      (((List.range 16).map (BitVec.ofNat 4)).map fun g => (lcExp table g).toNat) := by
  have hinj : Function.Injective fun g : Group => (lcExp table g).toNat :=
    fun g h hgh => ht g h (BitVec.eq_of_toNat_eq hgh)
  refine (List.perm_ext_iff_of_nodup (List.nodup_range.filter _) (List.Nodup.map hinj (by decide))).2 fun c => ?_
  rw [List.mem_filter, List.mem_range, lcCon_valid_iff, List.mem_map]
  constructor
  · rintro ⟨hc, g, hg⟩
    exact ⟨g, mem_allGroups g, by rw [hg, BitVec.toNat_ofNat, Nat.mod_eq_of_lt hc]⟩
  · rintro ⟨g, -, rfl⟩
    exact ⟨(lcExp table g).isLt, g, by rw [BitVec.ofNat_toNat, BitVec.setWidth_eq]⟩

end

/-- Settles O15: the two kinds of entries, and the count of the valid ones as the count of the groups. -/
theorem lineCodeRomsAreInverse : Obligations.LineCodeRomsAreInverse := by
  unfold Obligations.LineCodeRomsAreInverse
  intro table ht
  refine ⟨lcCon_lcExp ht, fun c hc => lcCon_of_not_image hc, ?_⟩
  rw [List.countP_eq_length_filter, (validCodewords_perm ht).length_eq]
  simp

/-! ### Encodings -/

/-- R93 to R95: an opcode of class `k` accepts the operands below the bound of `k`, and every larger number above OPC makes
the word illegal. -/
theorem encodedAs_of_opClass {opc : Nat} {k : OpClass} {command : Nat → Instr} (hopc : opClass (BitVec.ofNat 8 opc) = some k)
    (henc : ∀ v < k.bound, encode (command v) = BitVec.ofNat 32 (opc + 256 * v)) : encodedAs opc k.bound command := by
  refine ⟨fun v hv => decode_eq_ok_iff_encode.2 (henc v hv), fun w s hw hv => issue_of_not_legalWord (fun hlegal => ?_) s⟩
  obtain ⟨k', hk', hlt⟩ := (legalWord_iff w).1 hlegal
  have hfield : (CmdWord.ofWord w).opc = BitVec.ofNat 8 opc := by
    rw [← hw, ← ofWord_opc_toNat, BitVec.ofNat_toNat, BitVec.setWidth_eq]
  rw [hfield, hopc] at hk'
  cases hk'
  omega

/-! ### One group -/

/-- Settles O17: LC_EXP4 cannot fail, so its end is the write of RES. -/
theorem lcExp4GivesTheCodeword : Obligations.LcExp4GivesTheCodeword := by
  unfold Obligations.LcExp4GivesTheCodeword
  exact ⟨encodedAs_of_opClass (k := .g) rfl (by decide), fun _ _ => rfl⟩

/-- R107: LC_CON5 of a codeword with a valid entry. -/
theorem exec_lcCon5_of_valid {s : State} {c : Codeword} (h : (lcCon s.par.lcTable c).valid = true) :
    exec (.lcCon5 c) s = .next { s with res := (lcCon s.par.lcTable c).group.setWidth 32, status := 0x0001#16 } :=
  if_pos h

/-- R107: LC_CON5 of a codeword with an invalid entry. -/
theorem exec_lcCon5_of_invalid {s : State} {c : Codeword} (h : (lcCon s.par.lcTable c).valid = false) :
    exec (.lcCon5 c) s = .next { s with status := 0x0008#16 } :=
  if_neg (by simp [h])

/-- Settles O18: the entry of a codeword is the one that O15's laws of LC_CON give. -/
theorem lcCon5GivesTheGroupOrFails : Obligations.LcCon5GivesTheGroupOrFails := by
  unfold Obligations.LcCon5GivesTheGroupOrFails
  refine ⟨encodedAs_of_opClass (k := .c) rfl (by decide), ?_, ?_⟩
  · rintro _ g s ht rfl
    rw [exec_lcCon5_of_valid (valid_of_image g), lcCon_lcExp ht]
  · intro c s hc
    exact exec_lcCon5_of_invalid (by rw [lcCon_of_not_image hc])

/-! ### The whole of IBUF_SEQ -/

/-- R108: LC_EXPAND ends as the batch expansion does. -/
theorem exec_lcExpand {s : State} {r : Except Reason BitSeq}
    (h : changeCoding (ibufSeq s) (expand s.par.lcTable) 4 = r) :
    exec .lcExpand s = emitResult s r := congrArg (emitResult s) h

/-- R109: LC_CONTRACT ends as the batch contraction does. -/
theorem exec_lcContract {s : State} {r : Except Reason BitSeq}
    (h : changeCoding (ibufSeq s) (contract s.par.lcTable) 5 = r) :
    exec .lcContract s = emitResult s r := congrArg (emitResult s) h

/-- Settles O19: the length decides between `changeCoding_misaligned` and `expand_slices`, the capacity whether the expansion is
emitted. -/
theorem lcExpandExpandsOrFails : Obligations.LcExpandExpandsOrFails := by
  unfold Obligations.LcExpandExpandsOrFails
  refine ⟨encodedAs_of_opClass (k := .n) rfl (by decide), fun s => ?_⟩
  rw [← ibufSeq_length s]
  refine ⟨fun hmod => ?_, fun hmod hcap => ?_, fun hok hmod hcap => ?_⟩
  · rw [exec_lcExpand (changeCoding_misaligned _ hmod)]
    rfl
  · obtain ⟨out, hout, hlen, -⟩ := expand_slices s.par.lcTable hmod
    rw [exec_lcExpand hout, emitResult_overflows (by omega)]
  · obtain ⟨out, hout, hlen, hslices⟩ := expand_slices s.par.lcTable hmod
    obtain ⟨-, -, -, -, hobuf, -⟩ := hok
    obtain ⟨t, ht, hemitted⟩ := emitResult_emits (s := s) (out := out) (by omega) (by omega)
    exact ⟨t, out, (exec_lcExpand hout).trans ht, hemitted, by omega, hslices⟩

/-- Settles O20: the length, the entries and the capacity decide, in this order; a contraction is shorter than IBUF_SEQ, so its
length fits OBUF_LEN under every capacity. -/
theorem lcContractContractsOrFails : Obligations.LcContractContractsOrFails := by
  unfold Obligations.LcContractContractsOrFails
  refine ⟨encodedAs_of_opClass (k := .n) rfl (by decide), fun s => ?_⟩
  have h32 := s.ibufLen.isLt
  rw [← ibufSeq_length s] at h32 ⊢
  refine ⟨fun hmod => ?_, fun hmod hv => ?_, fun hmod hv hcap => ?_, fun hmod hv hcap => ?_⟩
  · rw [exec_lcContract (changeCoding_misaligned _ hmod)]
    rfl
  · rw [exec_lcContract (contract_fails hmod hv)]
    rfl
  · obtain ⟨out, hout, hlen, -⟩ := contract_slices hmod hv
    rw [exec_lcContract hout, emitResult_overflows (by omega)]
  · obtain ⟨out, hout, hlen, hslices⟩ := contract_slices hmod hv
    obtain ⟨t, ht, hemitted⟩ := emitResult_emits (s := s) (out := out) (by omega) (by omega)
    exact ⟨t, out, (exec_lcContract hout).trans ht, hemitted, by omega, hslices⟩

end Sys2Proof.Machine
end

section
/-! The NRZI differential unit (spec/41_nrzi.md R112 to R119): the two coders position by position, the three streaming commands
and their streams, and the two batch commands, each with its encoding. -/

namespace Sys2Proof.Machine

/-! ### The coders, position by position -/

/-- R112: the first output is the seed flipped by the first input. -/
theorem toDifferential_getElem?_zero (b : BitSeq) (l : Bool) : (toDifferential b l)[0]? = b[0]?.map (l ^^ ·) := by
  cases b <;> rfl

/-- R113: the first output compares the first input with the seed. -/
theorem fromDifferential_getElem?_zero (e : BitSeq) (l : Bool) : (fromDifferential e l)[0]? = e[0]?.map (· ^^ l) := by
  cases e <;> rfl

/-- R112: a later output is the output before it flipped by the input. -/
theorem toDifferential_getElem?_succ {b : BitSeq} {l x level : Bool} {i : Nat} (hx : b[i + 1]? = some x)
    (hl : (toDifferential b l)[i]? = some level) : (toDifferential b l)[i + 1]? = some (level ^^ x) := by
  induction b generalizing l i with
  | nil => simp at hx
  | cons y b ih =>
    cases i with
    | zero =>
      obtain rfl : (l ^^ y) = level := Option.some.inj hl
      have hx : b[0]? = some x := hx
      rw [toDifferential, List.getElem?_cons_succ, toDifferential_getElem?_zero, hx, Option.map_some]
    | succ i => exact ih hx hl

/-- R113: a later output compares the input with the input before it. -/
theorem fromDifferential_getElem?_succ {e : BitSeq} {l x before : Bool} {i : Nat} (hx : e[i + 1]? = some x)
    (hb : e[i]? = some before) : (fromDifferential e l)[i + 1]? = some (x ^^ before) := by
  induction e generalizing l i with
  | nil => simp at hx
  | cons y e ih =>
    cases i with
    | zero =>
      obtain rfl : y = before := Option.some.inj hb
      have hx : e[0]? = some x := hx
      rw [fromDifferential, List.getElem?_cons_succ, fromDifferential_getElem?_zero, hx, Option.map_some]
    | succ i => exact ih hx hb

/-- Settles O21: the lengths, and each formula at position 0 and after it; `!=` on bits is `^^`. -/
theorem nrziCodersFollowTheirFormulas : Obligations.NrziCodersFollowTheirFormulas := by
  unfold Obligations.NrziCodersFollowTheirFormulas
  intro b seed
  refine ⟨toDifferential_length b seed, fromDifferential_length b seed, fun x hx => ⟨?_, ?_⟩, fun i x before level hx hb hl => ?_⟩
  · rw [toDifferential_getElem?_zero, hx, Option.map_some]
  · rw [fromDifferential_getElem?_zero, hx, Option.map_some]
  · exact ⟨toDifferential_getElem?_succ hx hl, fromDifferential_getElem?_succ hx hb⟩

/-! ### The inverse law -/

/-- R114: the level after each bit is the reference its decoding starts the rest from. -/
theorem fromDifferential_toDifferential (b : BitSeq) (l : Bool) : fromDifferential (toDifferential b l) l = b := by
  induction b generalizing l with
  | nil => rfl
  | cons x b ih =>
    have hx : ((l ^^ x) ^^ l) = x := by rw [Bool.xor_comm l x, Bool.xor_assoc, Bool.xor_self, Bool.xor_false]
    rw [toDifferential, fromDifferential, ih, hx]

/-- R114: the level that a decoded bit encodes to is the bit it was decoded from. -/
theorem toDifferential_fromDifferential (e : BitSeq) (l : Bool) : toDifferential (fromDifferential e l) l = e := by
  induction e generalizing l with
  | nil => rfl
  | cons x e ih =>
    have hx : (l ^^ (x ^^ l)) = x := by rw [Bool.xor_comm x l, ← Bool.xor_assoc, Bool.xor_self, Bool.false_xor]
    rw [fromDifferential, toDifferential, hx, ih]

/-- Settles O22: both orders by induction on the sequence. -/
theorem nrziCodersInvertEachOther : Obligations.NrziCodersInvertEachOther := by
  unfold Obligations.NrziCodersInvertEachOther
  exact fun b seed => ⟨fromDifferential_toDifferential b seed, toDifferential_fromDifferential b seed⟩

/-! ### The streaming commands -/

section

variable (b seed : Bool) (s : State)

/-- R115. -/
theorem exec_nrziSeed : exec (.nrziSeed seed) s =
    .next { s with nrz := nrzWord seed seed, status := statusSuccess } := rfl

/-- R116. -/
theorem exec_nrziEbit : exec (.nrziEbit b) s = .next { s with
    res := bitRes (nrzLvl s.nrz ^^ b), nrz := nrzWord (nrzLvl s.nrz ^^ b) (nrzPrev s.nrz), status := statusSuccess } := rfl

/-- R117. -/
theorem exec_nrziDbit : exec (.nrziDbit b) s = .next { s with
    res := bitRes (b ^^ nrzPrev s.nrz), nrz := nrzWord (nrzLvl s.nrz) b, status := statusSuccess } := rfl

/-- R35: NRZ with both fields equal. -/
theorem nrzWord_self : nrzWord seed seed = if seed then 3#32 else 0#32 := by cases seed <;> decide

end

/-- A change of RES, NRZ and STATUS alone. -/
theorem changesOnlyRegs_res_nrz (s : State) (res nrz : BitVec 32) (status : BitVec 16) :
    changesOnlyRegs [1, 2, 9] s { s with res := res, nrz := nrz, status := status } :=
  changesOnlyRegs_scalar s [1, 2, 9] (by simp) (acc := s.crcAcc) (pm := s.pm) (by simp) (fun _ => rfl) (by simp) fun _ => rfl

/-- Settles O23: NRZI_SEED cannot fail, and NRZ becomes `nrzWord_self`. -/
theorem nrziSeedLoadsBothPipelines : Obligations.NrziSeedLoadsBothPipelines := by
  unfold Obligations.NrziSeedLoadsBothPipelines
  refine ⟨encodedAs_of_opClass (k := .s) rfl (by decide), fun seed s => ?_⟩
  rw [exec_nrziSeed, nrzWord_self]
  rfl

/-! ### Streams of bits -/

/-- A sequence of commands whose first one is known to end in `t`. -/
theorem execAll_cons {i : Instr} {s t : State} (h : exec i s = .next t) (is : List Instr) : execAll (i :: is) s = execAll is t := by
  rw [execAll, h]

/-- R116: a stream of NRZI_EBIT from any state encodes from the level it finds there; RES and the level are the last output,
or as before if there is none. -/
theorem execAll_map_nrziEbit (b : BitSeq) (s : State) : ∃ t, execAll (b.map .nrziEbit) s = .next t ∧
    nrzLvl t.nrz = (toDifferential b (nrzLvl s.nrz)).getLast?.getD (nrzLvl s.nrz) ∧
    t.res = ((toDifferential b (nrzLvl s.nrz)).getLast?.map bitRes).getD s.res := by
  induction b generalizing s with
  | nil => exact ⟨s, rfl, rfl, rfl⟩
  | cons x b ih =>
    obtain ⟨t, ht, hlvl, hres⟩ := ih { s with
      res := bitRes (nrzLvl s.nrz ^^ x), nrz := nrzWord (nrzLvl s.nrz ^^ x) (nrzPrev s.nrz), status := statusSuccess }
    rw [nrzLvl_nrzWord] at hlvl hres
    refine ⟨t, (execAll_cons (exec_nrziEbit x s) _).trans ht, ?_, ?_⟩
    · rw [hlvl, toDifferential, List.getLast?_cons, Option.getD_some]
    · rw [hres, toDifferential, List.getLast?_cons, Option.map_some, Option.getD_some, Option.getD_map]

/-- R117: a stream of NRZI_DBIT from any state decodes from the reference it finds there; RES is the last output, or as before if
there is none. -/
theorem execAll_map_nrziDbit (e : BitSeq) (s : State) : ∃ t, execAll (e.map .nrziDbit) s = .next t ∧
    t.res = ((fromDifferential e (nrzPrev s.nrz)).getLast?.map bitRes).getD s.res := by
  induction e generalizing s with
  | nil => exact ⟨s, rfl, rfl⟩
  | cons x e ih =>
    obtain ⟨t, ht, hres⟩ := ih { s with
      res := bitRes (x ^^ nrzPrev s.nrz), nrz := nrzWord (nrzLvl s.nrz) x, status := statusSuccess }
    rw [nrzPrev_nrzWord] at hres
    refine ⟨t, (execAll_cons (exec_nrziDbit x s) _).trans ht, ?_⟩
    rw [hres, fromDifferential, List.getLast?_cons, Option.map_some, Option.getD_some, Option.getD_map]

/-- R115, R116: the stream after a seed. -/
theorem execAll_nrziSeed_nrziEbit (b : BitSeq) (seed : Bool) (s : State) :
    ∃ t, execAll (.nrziSeed seed :: b.map .nrziEbit) s = .next t ∧
      nrzLvl t.nrz = (toDifferential b seed).getLast?.getD seed ∧
      t.res = ((toDifferential b seed).getLast?.map bitRes).getD s.res := by
  simpa only [nrzLvl_nrzWord, execAll_cons (exec_nrziSeed seed s)] using
    execAll_map_nrziEbit b { s with nrz := nrzWord seed seed, status := statusSuccess }

/-- R115, R117: the stream after a seed. -/
theorem execAll_nrziSeed_nrziDbit (e : BitSeq) (seed : Bool) (s : State) :
    ∃ t, execAll (.nrziSeed seed :: e.map .nrziDbit) s = .next t ∧
      t.res = ((fromDifferential e seed).getLast?.map bitRes).getD s.res := by
  simpa only [nrzPrev_nrzWord, execAll_cons (exec_nrziSeed seed s)] using
    execAll_map_nrziDbit e { s with nrz := nrzWord seed seed, status := statusSuccess }

/-- The last bit of a sequence cut after position `i`. -/
theorem getLast?_take_succ {x : BitSeq} {i : Nat} {out : Bool} (h : x[i]? = some out) : (x.take (i + 1)).getLast? = some out := by
  simp [List.getLast?_take, h]

/-- Settles O24: the step is `exec_nrziEbit`; step `i` of the stream is the end of the stream cut after bit `i`. -/
theorem nrziEbitIsOneEncoderStep : Obligations.NrziEbitIsOneEncoderStep := by
  unfold Obligations.NrziEbitIsOneEncoderStep
  refine ⟨encodedAs_of_opClass (k := .s) rfl (by decide), fun b s => ?_, fun b seed s => ⟨?_, fun i out hout => ?_⟩⟩
  · exact ⟨_, exec_nrziEbit b s, nrzLvl_nrzWord _ _, nrzPrev_nrzWord _ _, nrzLegal_nrzWord _ _, bitRes_eq _, rfl,
      changesOnlyRegs_res_nrz s _ _ _⟩
  · obtain ⟨t, ht, hlvl, -⟩ := execAll_nrziSeed_nrziEbit b seed s
    exact ⟨t, ht, hlvl⟩
  · obtain ⟨t, ht, -, hres⟩ := execAll_nrziSeed_nrziEbit (b.take (i + 1)) seed s
    rw [toDifferential_take, getLast?_take_succ hout] at hres
    exact ⟨t, ht, hres.trans (bitRes_eq out)⟩

/-- Settles O25: the step is `exec_nrziDbit`; step `i` of the stream is the end of the stream cut after bit `i`. -/
theorem nrziDbitIsOneDecoderStep : Obligations.NrziDbitIsOneDecoderStep := by
  unfold Obligations.NrziDbitIsOneDecoderStep
  refine ⟨encodedAs_of_opClass (k := .s) rfl (by decide), fun b s => ?_, fun e seed s i out hout => ?_⟩
  · exact ⟨_, exec_nrziDbit b s, nrzPrev_nrzWord _ _, nrzLvl_nrzWord _ _, nrzLegal_nrzWord _ _, bitRes_eq _, rfl,
      changesOnlyRegs_res_nrz s _ _ _⟩
  · obtain ⟨t, ht, hres⟩ := execAll_nrziSeed_nrziDbit (e.take (i + 1)) seed s
    rw [fromDifferential_take, getLast?_take_succ hout] at hres
    exact ⟨t, ht, hres.trans (bitRes_eq out)⟩

/-! ### The batch commands -/

/-- R56: an output as long as IBUF_SEQ fits OBUF_LEN under every capacity, so OBUF_CAP alone decides. -/
theorem emitResult_of_length_eq_ibufLen {s : State} {out : BitSeq} (h : out.length = s.ibufLen.toNat) :
    (s.par.obufCap < s.ibufLen.toNat → emitResult s (.ok out) = .next { s with status := 0x0014#16 }) ∧
    (s.ibufLen.toNat ≤ s.par.obufCap → ∃ t, emitResult s (.ok out) = .next t ∧ emitted s t out) := by
  have h32 := s.ibufLen.isLt
  rw [← h] at h32 ⊢
  exact ⟨emitResult_overflows, fun hcap => emitResult_emits hcap h32⟩

/-- Settles O26: the encoder keeps the length. -/
theorem nrziEncEncodesOrFails : Obligations.NrziEncEncodesOrFails := by
  unfold Obligations.NrziEncEncodesOrFails
  refine ⟨encodedAs_of_opClass (k := .s) rfl (by decide), fun seed s => ?_⟩
  exact emitResult_of_length_eq_ibufLen ((toDifferential_length _ seed).trans (ibufSeq_length s))

/-- R113: the reference reaches the first output alone. -/
theorem fromDifferential_not (e : BitSeq) (l : Bool) : fromDifferential e (!l) = (fromDifferential e l).modify 0 (!·) := by
  cases e with
  | nil => rfl
  | cons x e => simp [fromDifferential]

/-- R119: a flipped input bit reaches its own output and, as the reference, the next one. -/
theorem fromDifferential_modify_not (e : BitSeq) (l : Bool) (k : Nat) :
    fromDifferential (e.modify k (!·)) l = ((fromDifferential e l).modify k (!·)).modify (k + 1) (!·) := by
  induction e generalizing l k with
  | nil => simp [fromDifferential]
  | cons x e ih =>
    cases k with
    | zero => simp [fromDifferential, fromDifferential_not]
    | succ k => simp [fromDifferential, ih]

/-- Settles O27: the decoder keeps the length; the flip is `fromDifferential_modify_not`, which holds beyond the end too. -/
theorem nrziDecDecodesOrFails : Obligations.NrziDecDecodesOrFails := by
  unfold Obligations.NrziDecDecodesOrFails
  refine ⟨encodedAs_of_opClass (k := .s) rfl (by decide), fun seed s => ?_, fun e seed k _ => ?_⟩
  · exact emitResult_of_length_eq_ibufLen ((fromDifferential_length _ seed).trans (ibufSeq_length s))
  · exact fromDifferential_modify_not e seed k

end Sys2Proof.Machine
end

section
/-! The preamble unit (spec/42_preamble.md R131 to R137): `matchPreamble` as a test of the first bits, the step of the streaming
matcher arm by arm, the four commands, each with its encoding, and the agreement of the streaming matcher with the batch one. -/

namespace Sys2Proof.Machine

/-! ### The preamble and `matchPreamble` -/

/-- Settles O28: the pattern is `preRom` itself; the rest are facts of one constant. -/
theorem preambleBits : Obligations.PreambleBits := by
  unfold Obligations.PreambleBits
  exact ⟨rfl, preRom_length, by decide, by decide, rfl⟩

section

variable {x : BitSeq}

/-- R132: a sequence matches when it begins with the preamble. -/
theorem matchPreamble_iff_prefix : matchPreamble x = true ↔ preRom <+: x := by
  rw [matchPreamble_iff, List.prefix_iff_eq_take, preRom_length, eq_comm (a := preRom)]
  refine and_iff_right_of_imp fun h => ?_
  have hlen : (x.take 64).length = 64 := congrArg List.length h
  rw [List.length_take] at hlen
  omega

/-- R132: a sequence matches when it has the preamble's bit at each of the preamble's positions. -/
theorem matchPreamble_iff_getElem? : matchPreamble x = true ↔ ∀ i < 64, x[i]? = preRom[i]? := by
  rw [matchPreamble_iff_prefix, List.prefix_iff_getElem?]
  exact forall₂_congr fun i hi => by rw [List.getElem?_eq_getElem hi]

/-- R132: a match takes 64 bits. -/
theorem length_of_matchPreamble (h : matchPreamble x = true) : 64 ≤ x.length :=
  ((matchPreamble_iff x).1 h).1

/-- R132: a sequence of fewer than 64 bits never matches. -/
theorem matchPreamble_of_short (h : x.length < 64) : matchPreamble x = false :=
  Bool.eq_false_iff.2 fun hx => absurd (length_of_matchPreamble hx) (by omega)

/-- R132: what follows position 63 does not matter. -/
theorem matchPreamble_append (y : BitSeq) (h : x.length = 64) : matchPreamble (x ++ y) = matchPreamble x := by
  rw [Bool.eq_iff_iff, matchPreamble_iff_prefix, matchPreamble_iff_prefix]
  constructor
  · exact fun hxy => List.prefix_of_prefix_length_le hxy (List.prefix_append x y) (by rw [preRom_length, h])
  · exact fun hx => hx.trans (List.prefix_append x y)

/-- R132: one flipped bit inside the preamble ends the match. -/
theorem matchPreamble_modify_not {k : Nat} (h : matchPreamble x = true) (hk : k < 64) :
    matchPreamble (x.modify k (!·)) = false := by
  rw [Bool.eq_false_iff]
  intro hflip
  have hbit : x[k]? = preRom[k]? := matchPreamble_iff_getElem?.1 h k hk
  have hnot : (x[k]?).map (!·) = preRom[k]? := by
    rw [← matchPreamble_iff_getElem?.1 hflip k hk, List.getElem?_modify_eq]
    rfl
  rw [hbit, List.getElem?_eq_getElem (hk.trans_eq preRom_length.symm)] at hnot
  simp at hnot

end

/-- Settles O29: the match bit by bit, and its consequences for longer, shorter and flipped sequences. -/
theorem preambleMatchIsExact : Obligations.PreambleMatchIsExact := by
  unfold Obligations.PreambleMatchIsExact
  refine ⟨fun x => ?_, fun x y h => matchPreamble_append y h, fun x h => matchPreamble_of_short h,
    fun x k h hk => matchPreamble_modify_not h hk⟩
  rw [← matchPreamble_iff_getElem?, iff_and_self]
  exact length_of_matchPreamble

/-! ### The step of the streaming matcher -/

section

variable {pm : BitVec 32} {b : Bool}

/-- R131: a position at which the preamble has a bit. -/
theorem lt_of_preRom_getElem? {i : Nat} (h : preRom[i]? = some b) : i < 64 :=
  preRom_length ▸ (List.getElem?_eq_some_iff.1 h).1

/-- R135: below 64 the count rises without wrapping. -/
theorem toNat_pmCnt_add_one (h : (pmCnt pm).toNat < 64) : (pmCnt pm + 1).toNat = (pmCnt pm).toNat + 1 := by
  rw [BitVec.toNat_add]
  exact Nat.mod_eq_of_lt (by simp; omega)

/-- R135, while MATCHING: the preamble's next bit raises the count, and gives MATCHED at 64. -/
theorem pmNext_of_next_bit (hst : pmSt pm = pmMatching) (hb : preRom[(pmCnt pm).toNat]? = some b) :
    pmNext pm b = pmWord (pmCnt pm + 1) (if (pmCnt pm).toNat + 1 = 64 then pmMatched else pmMatching) := by
  have h64 : pmCnt pm + 1 = 64 ↔ (pmCnt pm).toNat + 1 = 64 := by
    rw [← toNat_pmCnt_add_one (lt_of_preRom_getElem? hb)]
    exact BitVec.toNat_inj.symm
  simp only [pmNext, if_pos hst, if_pos hb, h64]

/-- R135, while MATCHING: any other bit gives FAILED and keeps the count. -/
theorem pmNext_of_other_bit (hst : pmSt pm = pmMatching) (hb : preRom[(pmCnt pm).toNat]? ≠ some b) :
    pmNext pm b = pmWord (pmCnt pm) pmFailed := by
  rw [pmNext, if_pos hst, if_neg hb]

/-- R135: MATCHED and FAILED are sticky. -/
theorem pmNext_of_not_matching (hst : pmSt pm ≠ pmMatching) : pmNext pm b = pm := if_neg hst

/-- R36: the register PM with both fields 0. -/
theorem pmWord_zero_matching : pmWord 0 pmMatching = 0x00000000#32 := by decide

end

/-! ### The commands -/

section

variable (b : Bool) (s : State)

/-- R134. -/
theorem exec_pmReset : exec .pmReset s = .next { s with pm := pmWord 0 pmMatching, status := statusSuccess } := rfl

/-- R135. -/
theorem exec_pmBit : exec (.pmBit b) s = .next { s with
    res := (pmSt (pmNext s.pm b)).setWidth 32, pm := pmNext s.pm b, status := statusSuccess } := rfl

/-- R136. -/
theorem exec_preMatch : exec .preMatch s = .next { s with
    res := bitRes (matchPreamble (ibufSeq s)), status := statusSuccess } := rfl

/-- A change of RES, PM and STATUS alone. -/
theorem changesOnlyRegs_res_pm (res pm : BitVec 32) (status : BitVec 16) :
    changesOnlyRegs [1, 2, 10] s { s with res := res, pm := pm, status := status } :=
  changesOnlyRegs_scalar s [1, 2, 10] (by simp) (acc := s.crcAcc) (nrz := s.nrz) (by simp) (fun _ => rfl) (fun _ => rfl) (by simp)

end

/-- Settles O30: the preamble has 64 bits, and OBUF_CAP is at least 64 (R19). -/
theorem preGenEmitsThePreamble : Obligations.PreGenEmitsThePreamble := by
  unfold Obligations.PreGenEmitsThePreamble
  refine ⟨encodedAs_of_opClass (k := .n) rfl (by decide), fun s hok => ?_⟩
  obtain ⟨-, -, hobuf, -⟩ := hok
  obtain ⟨t, ht, hemitted⟩ := emitResult_emits (s := s) (out := preRom) hobuf (by decide)
  obtain ⟨-, hlen, -⟩ := id hemitted
  exact ⟨t, ht, hemitted, BitVec.eq_of_toNat_eq hlen⟩

/-- Settles O31: PM_RESET cannot fail, and PM becomes `pmWord_zero_matching`. -/
theorem pmResetStartsTheMatcher : Obligations.PmResetStartsTheMatcher := by
  unfold Obligations.PmResetStartsTheMatcher
  refine ⟨encodedAs_of_opClass (k := .n) rfl (by decide), fun s => ?_⟩
  rw [exec_pmReset, ← pmWord_zero_matching]
  exact ⟨rfl, pmCnt_pmWord _ _, pmSt_pmWord _ _⟩

/-- Settles O32: the step is `exec_pmBit`, and each clause about PM is one arm of `pmNext`. -/
theorem pmBitIsOneMatcherStep : Obligations.PmBitIsOneMatcherStep := by
  unfold Obligations.PmBitIsOneMatcherStep
  refine ⟨encodedAs_of_opClass (k := .s) rfl (by decide), fun b s hpm => ⟨_, exec_pmBit b s, fun hst hb => ?_, fun hst hb => ?_,
    pmNext_of_not_matching, rfl, rfl, pmLegal_pmNext hpm b, changesOnlyRegs_res_pm s _ _ _⟩⟩
  · rw [pmNext_of_next_bit hst hb, pmCnt_pmWord, pmSt_pmWord]
    exact ⟨toNat_pmCnt_add_one (lt_of_preRom_getElem? hb), rfl⟩
  · rw [pmNext_of_other_bit hst hb]
    exact ⟨pmCnt_pmWord _ _, pmSt_pmWord _ _⟩

/-- Settles O33: RES is the match as a number; below 64 bits there is none. -/
theorem preMatchTestsTheInput : Obligations.PreMatchTestsTheInput := by
  unfold Obligations.PreMatchTestsTheInput
  refine ⟨encodedAs_of_opClass (k := .n) rfl (by decide), fun s => ⟨fun hlen => ?_, ?_⟩⟩
  · rw [exec_preMatch, matchPreamble_of_short (by rwa [ibufSeq_length])]
    rfl
  · rw [exec_preMatch, bitRes_eq]
    rfl

/-! ### The streaming matcher against the batch one -/

/-- R137: `x` departs from the preamble at one of the preamble's positions. -/
def Mismatches (x : BitSeq) : Prop := ∃ i, i < min x.length 64 ∧ x[i]? ≠ preRom[i]?

/-- What PM says after PM_RESET and the bits `x`: still inside the preamble with the count at its next position, past the whole of
it, or departed from it. -/
inductive PmAfter (x : BitSeq) (pm : BitVec 32) : Prop
  | matching (hst : pmSt pm = pmMatching) (hcnt : (pmCnt pm).toNat = x.length) (hlt : x.length < 64) (hx : x <+: preRom)
  | matched (hst : pmSt pm = pmMatched) (hx : preRom <+: x)
  | failed (hst : pmSt pm = pmFailed) (hx : Mismatches x)

section

variable {x : BitSeq} {pm : BitVec 32}

/-- A mismatch stays one when more bits follow. -/
theorem Mismatches.append (h : Mismatches x) (y : BitSeq) : Mismatches (x ++ y) := by
  obtain ⟨i, hi, hne⟩ := h
  refine ⟨i, by rw [List.length_append]; omega, ?_⟩
  rwa [List.getElem?_append_left (by omega)]

/-- Inside the preamble there is no mismatch. -/
theorem not_mismatches_of_prefix (h : x <+: preRom) : ¬ Mismatches x := by
  rintro ⟨i, hi, hne⟩
  have hlt : i < x.length := by omega
  exact hne ((List.getElem?_eq_getElem hlt).trans (List.prefix_iff_getElem?.1 h i hlt).symm)

/-- R137: a mismatch and a match exclude each other. -/
theorem not_mismatches_of_matchPreamble (h : matchPreamble x = true) : ¬ Mismatches x := by
  rintro ⟨i, hi, hne⟩
  exact hne (matchPreamble_iff_getElem?.1 h i (by omega))

/-- R134: PM_RESET starts the matcher before the first bit. -/
theorem pmAfter_nil : PmAfter [] (pmWord 0 pmMatching) :=
  .matching (pmSt_pmWord _ _) (by rw [pmCnt_pmWord]; rfl) (by decide) List.nil_prefix

/-- The preamble's bits so far and its next bit are the preamble's bits so far. -/
theorem append_prefix_preRom {b : Bool} (hx : x <+: preRom) (hb : preRom[x.length]? = some b) : x ++ [b] <+: preRom := by
  obtain ⟨rest, hrest⟩ := hx
  rw [← hrest, List.getElem?_append_right le_rfl, Nat.sub_self] at hb
  cases rest with
  | nil => simp at hb
  | cons c rest =>
    obtain rfl : c = b := by simpa using hb
    exact ⟨rest, by rw [← hrest, List.append_assoc, List.singleton_append]⟩

/-- R135: one more bit. -/
theorem PmAfter.next (h : PmAfter x pm) (b : Bool) : PmAfter (x ++ [b]) (pmNext pm b) := by
  cases h with
  | matching hst hcnt hlt hx =>
    by_cases hb : preRom[(pmCnt pm).toNat]? = some b
    · have hpre : x ++ [b] <+: preRom := append_prefix_preRom hx (hcnt ▸ hb)
      have hlen : (x ++ [b]).length = x.length + 1 := List.length_append
      rw [pmNext_of_next_bit hst hb, hcnt]
      split
      next h64 =>
        refine .matched (pmSt_pmWord _ _) ?_
        rw [hpre.eq_of_length (by rw [hlen, h64, preRom_length])]
      next h64 =>
        refine .matching (pmSt_pmWord _ _) ?_ (by omega) hpre
        rw [pmCnt_pmWord, toNat_pmCnt_add_one (by omega), hcnt, hlen]
    · rw [pmNext_of_other_bit hst hb]
      refine .failed (pmSt_pmWord _ _) ⟨x.length, by simp; omega, ?_⟩
      rw [List.getElem?_concat_length, ← hcnt]
      exact Ne.symm hb
  | matched hst hx =>
    rw [pmNext_of_not_matching (by rw [hst]; decide)]
    exact .matched hst (hx.trans (List.prefix_append x [b]))
  | failed hst hx =>
    rw [pmNext_of_not_matching (by rw [hst]; decide)]
    exact .failed hst (hx.append [b])

/-- R137: MATCHED is the batch matcher's match. -/
theorem PmAfter.matched_iff (h : PmAfter x pm) : pmSt pm = pmMatched ↔ matchPreamble x = true := by
  cases h with
  | matching hst _ hlt _ => exact iff_of_false (by rw [hst]; decide) (Bool.eq_false_iff.1 (matchPreamble_of_short hlt))
  | matched hst hx => exact iff_of_true hst (matchPreamble_iff_prefix.2 hx)
  | failed hst hx =>
    exact iff_of_false (by rw [hst]; decide) fun hm => not_mismatches_of_matchPreamble hm hx

/-- R137: FAILED is a mismatch at one of the preamble's positions. -/
theorem PmAfter.failed_iff (h : PmAfter x pm) : pmSt pm = pmFailed ↔ Mismatches x := by
  cases h with
  | matching hst _ _ hx => exact iff_of_false (by rw [hst]; decide) (not_mismatches_of_prefix hx)
  | matched hst hx =>
    exact iff_of_false (by rw [hst]; decide) (not_mismatches_of_matchPreamble (matchPreamble_iff_prefix.2 hx))
  | failed hst hx => exact iff_of_true hst hx

end

/-- R135: a stream of PM_BIT carries `PmAfter` from the bits before it to all the bits. -/
theorem execAll_map_pmBit (bits : BitSeq) {x : BitSeq} {s : State} (h : PmAfter x s.pm) :
    ∃ t, execAll (bits.map .pmBit) s = .next t ∧ PmAfter (x ++ bits) t.pm := by
  induction bits generalizing x s with
  | nil => exact ⟨s, rfl, by rwa [List.append_nil]⟩
  | cons b bits ih =>
    obtain ⟨t, ht, hafter⟩ := ih (s := { s with
      res := (pmSt (pmNext s.pm b)).setWidth 32, pm := pmNext s.pm b, status := statusSuccess }) (h.next b)
    exact ⟨t, (execAll_cons (exec_pmBit b s) _).trans ht, by rwa [List.append_cons]⟩

/-- Settles O34: `PmAfter` holds after PM_RESET, every PM_BIT keeps it, and it decides both states. -/
theorem streamingMatcherAgreesWithBatch : Obligations.StreamingMatcherAgreesWithBatch := by
  unfold Obligations.StreamingMatcherAgreesWithBatch
  intro bits s
  obtain ⟨t, ht, hafter⟩ := execAll_map_pmBit bits (x := [])
    (s := { s with pm := pmWord 0 pmMatching, status := statusSuccess }) pmAfter_nil
  exact ⟨t, (execAll_cons (exec_pmReset s) _).trans ht, hafter.matched_iff, hafter.failed_iff⟩

end Sys2Proof.Machine
end

section
/-! The CRC-32 unit (spec/43_crc32.md R141 to R149): `crc32` of fixed lists, the four commands, each with its encoding, and the
stream of commands against `crc32`. -/

namespace Sys2Proof.Machine

/-! ### `crc32` -/

/-- R143: no bytes. -/
theorem crc32_nil : crc32 [] = 0x00000000#32 := by decide

/-- R142: the check value of the common variant. -/
theorem crc32_checkValue :
    crc32 [0x31#8, 0x32#8, 0x33#8, 0x34#8, 0x35#8, 0x36#8, 0x37#8, 0x38#8, 0x39#8] = 0xCBF43926#32 := by decide +kernel

/-- Settles O35: both are evaluations of `crc32`. -/
theorem crcCheckValue : Obligations.CrcCheckValue := by
  unfold Obligations.CrcCheckValue
  exact ⟨crc32_checkValue, crc32_nil⟩

/-- R142: the one-byte step is eight shifts of the register with the byte xored into its low bits. -/
theorem crcByte_eq_shifts (a : BitVec 32) (x : Byte) : crcByte a x =
    crcShift (crcShift (crcShift (crcShift (crcShift (crcShift (crcShift (crcShift (a ^^^ x.setWidth 32)))))))) := rfl

/-! ### The commands -/

section

variable (y : Byte) (s : State)

/-- R146. -/
theorem exec_crcInit : exec .crcInit s = .next { s with crcAcc := Config.crcInit, status := statusSuccess } := rfl

/-- R147. -/
theorem exec_crcByte : exec (.crcByte y) s = .next { s with crcAcc := crcByte s.crcAcc y, status := statusSuccess } := rfl

/-- R148. -/
theorem exec_crcFinal : exec .crcFinal s =
    .next { s with res := s.crcAcc ^^^ Config.crcXorOut, status := statusSuccess } := rfl

/-- R149. -/
theorem exec_crc32 : exec .crc32 s = .next { s with res := crc32 (pbufSeq s), status := statusSuccess } := rfl

end

/-- R147: the word of CRC_BYTE, for every operand. -/
theorem encode_crcByte {v : Nat} (hv : v < 256) : encode (.crcByte (BitVec.ofNat 8 v)) = BitVec.ofNat 32 (0x19 + 256 * v) := by
  refine BitVec.eq_of_toNat_eq ?_
  rw [encode, toWord_toNat, encodeFields]
  simp only [BitVec.toNat_ofNat]
  omega

/-- Settles O36: CRC_INIT cannot fail, so its end is the write of CRC_ACC. -/
theorem crcInitStartsTheStream : Obligations.CrcInitStartsTheStream := by
  unfold Obligations.CrcInitStartsTheStream
  exact ⟨encodedAs_of_opClass (k := .n) rfl (by decide), exec_crcInit⟩

/-- Settles O37: class Y admits every operand, and the step is `crcByte_eq_shifts`. -/
theorem crcByteFeedsOneByte : Obligations.CrcByteFeedsOneByte := by
  unfold Obligations.CrcByteFeedsOneByte
  refine ⟨encodedAs_of_opClass (k := .y) rfl fun _ => encode_crcByte, fun y s => ?_⟩
  rw [exec_crcByte, crcByte_eq_shifts]
  rfl

/-- R149: with PBUF_LEN = 0 there are no bytes. -/
theorem pbufSeq_of_pbufLen_eq_zero {s : State} (h : s.pbufLen = 0#32) : pbufSeq s = [] := by
  rw [← List.length_eq_zero_iff, pbufSeq_length, h]
  rfl

/-- Settles O39: the end is `exec_crc32`; an empty PBUF_SEQ has the CRC `crc32_nil`. -/
theorem crc32OfThePayloadBuffer : Obligations.Crc32OfThePayloadBuffer := by
  unfold Obligations.Crc32OfThePayloadBuffer
  refine ⟨encodedAs_of_opClass (k := .n) rfl (by decide), fun s => ⟨exec_crc32 s, fun hlen => ?_⟩⟩
  rw [exec_crc32, pbufSeq_of_pbufLen_eq_zero hlen, crc32_nil]
  rfl

/-! ### The stream -/

/-- R147, R148: CRC_BYTE over every byte and CRC_FINAL fold the bytes into the CRC_ACC they find and invert it. -/
theorem execAll_map_crcByte_crcFinal (p : List Byte) (s : State) : ∃ t,
    execAll (p.map .crcByte ++ [.crcFinal]) s = .next t ∧ t.res = p.foldl crcByte s.crcAcc ^^^ Config.crcXorOut := by
  induction p generalizing s with
  | nil => exact ⟨_, execAll_cons (exec_crcFinal s) [], rfl⟩
  | cons y p ih =>
    obtain ⟨t, ht, hres⟩ := ih { s with crcAcc := crcByte s.crcAcc y, status := statusSuccess }
    exact ⟨t, (execAll_cons (exec_crcByte y s) _).trans ht, hres⟩

/-- R148: after CRC_INIT the stream leaves the batch CRC. -/
theorem execAll_crcInit_crcByte_crcFinal (p : List Byte) (s : State) : ∃ t,
    execAll (.crcInit :: (p.map .crcByte ++ [.crcFinal])) s = .next t ∧ t.res = crc32 p := by
  rw [execAll_cons (exec_crcInit s)]
  exact execAll_map_crcByte_crcFinal p _

/-- Settles O38: the end is `exec_crcFinal`, the stream a fold of `crcByte`; CRC_FINAL right after CRC_INIT is the stream of no
bytes. -/
theorem crcFinalReadsTheStreamOut : Obligations.CrcFinalReadsTheStreamOut := by
  unfold Obligations.CrcFinalReadsTheStreamOut
  refine ⟨encodedAs_of_opClass (k := .n) rfl (by decide), exec_crcFinal, execAll_crcInit_crcByte_crcFinal, fun s => ?_⟩
  rw [← crc32_nil]
  exact execAll_crcInit_crcByte_crcFinal [] s

end Sys2Proof.Machine
end

section
/-! The frame unit (spec/44_frame.md R150 to R157): the failures and the intermediate results of the encoder, and the ends of the four
commands, each with its encoding. -/

namespace Sys2Proof.Machine

/-! ### Building a frame -/

section

variable {src tgt : Nat} {p : List Byte}

/-- R150, step 1: an address that does not fit 48 bits. -/
theorem marshal_addrOverflow (h : ¬ (tgt < 2 ^ 48 ∧ src < 2 ^ 48)) : marshal src tgt p = .error .addrOverflow :=
  if_pos (by simp only [Config.addrBits]; omega)

/-- R150, step 2: a payload whose length does not fit 16 bits. -/
theorem marshal_payloadOverflow (htgt : tgt < 2 ^ 48) (hsrc : src < 2 ^ 48) (hp : 65535 < p.length) :
    marshal src tgt p = .error .payloadOverflow := by
  rw [marshal, if_neg (by simp only [Config.addrBits]; omega)]
  exact if_pos hp

/-- R151: a frame that cannot be marshalled cannot be encoded. -/
theorem encodeFrame_of_error {table : Vector Codeword 16} {e : Reason} (h : marshal src tgt p = .error e) :
    encodeFrame table src tgt p = .error e := by
  rw [encodeFrame, h]

/-- R151: the intermediate results of an encoding that succeeds, with their lengths. -/
theorem encodeFrame_stages (table : Vector Codeword 16) (hsrc : src < 2 ^ 48) (htgt : tgt < 2 ^ 48) (hp : p.length ≤ 65535) :
    ∃ raw lc, marshal src tgt p = .ok raw ∧ raw.length = 144 + 8 * p.length ∧
      changeCoding raw (expand table) 4 = .ok lc ∧ lc.length = 180 + 10 * p.length ∧
      encodeFrame table src tgt p = .ok (preRom ++ toDifferential lc true) ∧
      (preRom ++ toDifferential lc true).length = 244 + 10 * p.length := by
  obtain ⟨raw, hraw, hrawLen, -⟩ := rawFrameLayout src tgt p hsrc htgt hp
  obtain ⟨lc, hlc, hlcLen, -⟩ := expand_slices table (s := raw) (by omega)
  refine ⟨raw, lc, hraw, hrawLen, hlc, by omega, encodeFrame_of_ok hraw hlc, ?_⟩
  rw [List.length_append, preRom_length, toDifferential_length]
  omega

end

/-! ### The four commands -/

section

variable {s : State}

/-- R154: FRAME_MARSHAL ends as `marshal` does. -/
theorem exec_frameMarshal {r : Except Reason BitSeq} (h : marshal s.src.toNat s.tgt.toNat (pbufSeq s) = r) :
    exec .frameMarshal s = emitResult s r := congrArg (emitResult s) h

/-- R156: FRAME_ENC ends as `encodeFrame` does. -/
theorem exec_frameEnc {r : Except Reason BitSeq}
    (h : encodeFrame s.par.lcTable s.src.toNat s.tgt.toNat (pbufSeq s) = r) :
    exec .frameEnc s = emitResult s r := congrArg (emitResult s) h

/-- R155: FRAME_SPLIT ends as `splitFrame` does. -/
theorem exec_frameSplit {r : Except Reason Frame} (h : splitFrame (ibufSeq s) = r) :
    exec .frameSplit s = deliverResult s r := congrArg (deliverResult s) h

/-- R157: FRAME_DEC ends as `decodeFrame` does. -/
theorem exec_frameDec {r : Except Reason Frame} (h : decodeFrame s.par.lcTable (ibufSeq s) = r) :
    exec .frameDec s = deliverResult s r := congrArg (deliverResult s) h

/-- R155, R157: the fields of a split frame fit their registers, so PBUF_CAP alone decides whether they are delivered. -/
theorem deliverResult_of_splitFrame {raw : BitSeq} {f : Frame} (hf : splitFrame raw = .ok f) (h32 : raw.length < 2 ^ 32)
    (hcap : f.payload.length ≤ s.par.pbufCap) :
    ∃ t, deliverResult s (.ok f) = .next t ∧ delivered s t f.src f.tgt f.payload := by
  obtain ⟨hsrc, htgt, hlen⟩ := splitFrame_bounds hf
  exact deliverResult_delivers hcap (by omega) hsrc htgt

end

/-- Settles O42: the checks of `marshal` in their order, then the capacity against the length of the raw frame. -/
theorem frameMarshalBuildsTheRawFrameOrFails : Obligations.FrameMarshalBuildsTheRawFrameOrFails := by
  unfold Obligations.FrameMarshalBuildsTheRawFrameOrFails
  refine ⟨encodedAs_of_opClass (k := .n) rfl (by decide), fun s => ?_⟩
  rw [← pbufSeq_length s]
  refine ⟨fun haddr => ?_, fun ⟨htgt, hsrc⟩ hp => ?_, fun ⟨htgt, hsrc⟩ hp hcap => ?_, fun ⟨htgt, hsrc⟩ hp hcap => ?_⟩
  · rw [exec_frameMarshal (marshal_addrOverflow haddr)]
    rfl
  · rw [exec_frameMarshal (marshal_payloadOverflow htgt hsrc hp)]
    rfl
  · obtain ⟨raw, hraw, hlen, -⟩ := rawFrameLayout _ _ _ hsrc htgt hp
    rw [exec_frameMarshal hraw, emitResult_overflows (by omega)]
  · obtain ⟨raw, hraw, hlen, -⟩ := rawFrameLayout _ _ _ hsrc htgt hp
    obtain ⟨t, ht, hemitted⟩ := emitResult_emits (s := s) (out := raw) (by omega) (by omega)
    exact ⟨t, raw, hraw, hlen, (exec_frameMarshal hraw).trans ht, hemitted⟩

/-- Settles O44: the failures of `marshal`, then the capacity against the length of the transmittable frame. -/
theorem frameEncBuildsTheTransmittableFrameOrFails : Obligations.FrameEncBuildsTheTransmittableFrameOrFails := by
  unfold Obligations.FrameEncBuildsTheTransmittableFrameOrFails
  refine ⟨encodedAs_of_opClass (k := .n) rfl (by decide), fun s => ?_⟩
  rw [← pbufSeq_length s]
  refine ⟨fun haddr => ?_, fun ⟨htgt, hsrc⟩ hp => ?_, fun ⟨htgt, hsrc⟩ hp hcap => ?_, fun ⟨htgt, hsrc⟩ hp hcap => ?_⟩
  · rw [exec_frameEnc (encodeFrame_of_error (marshal_addrOverflow haddr))]
    rfl
  · rw [exec_frameEnc (encodeFrame_of_error (marshal_payloadOverflow htgt hsrc hp))]
    rfl
  · obtain ⟨raw, lc, -, -, -, -, henc, hlen⟩ := encodeFrame_stages s.par.lcTable hsrc htgt hp
    rw [exec_frameEnc henc, emitResult_overflows (by omega)]
  · obtain ⟨raw, lc, -, -, -, -, henc, hlen⟩ := encodeFrame_stages s.par.lcTable hsrc htgt hp
    obtain ⟨t, ht, hemitted⟩ := emitResult_emits (s := s) (out := preRom ++ toDifferential lc true) (by omega) (by omega)
    exact ⟨t, _, henc, hlen, (exec_frameEnc henc).trans ht, hemitted⟩

/-- A slice of a slice, inside its end. -/
theorem slice_slice {s : BitSeq} {a b i j : Nat} (h : a + j ≤ b) : slice (slice s a b) i j = slice s (a + i) (a + j) := by
  refine List.ext_getElem? fun k => ?_
  rw [slice_getElem?, slice_getElem?, slice_getElem?]
  by_cases hk : i + k < j
  · rw [if_pos hk, if_pos (by omega), if_pos (by omega), Nat.add_assoc]
  · rw [if_neg hk, if_neg (by omega)]

/-- R152: byte `j` of the payload packs the bits from 112 + 8*j on. -/
theorem payload_getElem? {r : BitSeq} {j : Nat} (h : 144 ≤ r.length) (hj : j < (r.length - 144) / 8) :
    (bytesOf (slice r 112 (r.length - 32)))[j]? = some (BitVec.ofNat 8 (bitsToUInt (slice r (112 + 8 * j) (120 + 8 * j)))) := by
  rw [bytesOf_getElem?, if_pos (by rwa [body_length h]), slice_slice (by omega), Nat.add_comm (8 * j) 8, ← Nat.add_assoc]

/-- Settles O43: the checks of `splitFrame` in their order, then PBUF_CAP against the payload. -/
theorem frameSplitDeliversTheFieldsOrFails : Obligations.FrameSplitDeliversTheFieldsOrFails := by
  unfold Obligations.FrameSplitDeliversTheFieldsOrFails
  refine ⟨encodedAs_of_opClass (k := .n) rfl (by decide), fun s => ?_⟩
  have h32 := s.ibufLen.isLt
  rw [← ibufSeq_length s] at h32 ⊢
  refine ⟨fun hn => ?_, fun hn h8 => ?_, fun ⟨hn, h8⟩ hcrc => ?_, fun ⟨hn, h8⟩ hcrc hlen => ?_,
    fun ⟨hn, h8⟩ hcrc hlen hcap => ?_, fun ⟨hn, h8⟩ hcrc hlen hcap => ?_⟩
  · rw [exec_frameSplit (splitFrame_short hn)]
    rfl
  · rw [exec_frameSplit (splitFrame_odd hn h8)]
    rfl
  · rw [exec_frameSplit (splitFrame_badCrc hn h8 hcrc)]
    rfl
  · rw [exec_frameSplit (splitFrame_badLength hn h8 hcrc hlen)]
    rfl
  · have hf := splitFrame_ok hn h8 hcrc hlen
    obtain ⟨-, -, hpayload⟩ := splitFrame_bounds hf
    rw [exec_frameSplit hf, deliverResult_overflows (hcap.trans_eq hpayload.symm)]
  · have hf := splitFrame_ok hn h8 hcrc hlen
    obtain ⟨-, -, hpayload⟩ := splitFrame_bounds hf
    obtain ⟨t, ht, hdelivered⟩ := deliverResult_of_splitFrame (s := s) hf h32 (hpayload.trans_le hcap)
    exact ⟨t, _, (exec_frameSplit hf).trans ht, hdelivered, hpayload, fun j hj => payload_getElem? hn hj⟩

/-- Settles O45: the checks of `decodeFrame` in their order; once the line code contracts, FRAME_DEC ends as the split of the raw
frame does. -/
theorem frameDecDeliversTheFrameOrFails : Obligations.FrameDecDeliversTheFrameOrFails := by
  unfold Obligations.FrameDecDeliversTheFrameOrFails
  refine ⟨encodedAs_of_opClass (k := .n) rfl (by decide), fun s => ?_⟩
  have h32 := s.ibufLen.isLt
  have hd : (fromDifferential ((ibufSeq s).drop 64) true).length = (ibufSeq s).length - 64 := by
    rw [fromDifferential_length, List.length_drop]
  rw [← ibufSeq_length s] at h32 ⊢
  dsimp only
  rw [← hd]
  refine ⟨fun hn => ?_, fun hn hpre => ?_, fun hn hpre h5 => ?_, fun hn hpre h5 hv => ?_, fun hn hpre h5 hv => ?_⟩
  · rw [exec_frameDec (decodeFrame_short _ hn)]
    rfl
  · rw [exec_frameDec (decodeFrame_noPreamble _ hn hpre)]
    rfl
  · rw [exec_frameDec (decodeFrame_codingError _ hn hpre (changeCoding_misaligned _ h5))]
    rfl
  · rw [exec_frameDec (decodeFrame_codingError _ hn hpre (contract_fails h5 hv))]
    rfl
  · obtain ⟨raw, hraw, hlen, hslices⟩ := contract_slices h5 hv
    have hexec {r : Except Reason Frame} (hr : splitFrame raw = r) : exec .frameDec s = deliverResult s r :=
      exec_frameDec ((decodeFrame_raw _ hn hpre hraw).trans hr)
    refine ⟨raw, hlen, hslices, fun he => hexec he, fun he => hexec he, fun he => hexec he, fun f hf hcap => ?_,
      fun f hf hcap => ?_, splitFrame_cases raw⟩
    · rw [hexec hf, deliverResult_overflows hcap]
    · rw [hexec hf]
      exact deliverResult_of_splitFrame hf (by omega) hcap

end Sys2Proof.Machine
end

section
/-! R158, R159 (spec/44_frame.md): decoding inverts encoding, and the frame commands end as the step-by-step paths do. -/

namespace Sys2Proof.Machine

/-! ### The round trip -/

/-- R152: the raw frame of legal fields splits into those fields. -/
theorem splitFrame_of_marshal {src tgt : Nat} {p : List Byte} {raw : BitSeq} (hsrc : src < 2 ^ 48) (htgt : tgt < 2 ^ 48)
    (hp : p.length ≤ 65535) (h : marshal src tgt p = .ok raw) : splitFrame raw = .ok ⟨src, tgt, p⟩ := by
  obtain ⟨hlen, h0, h48, h96, h112, hcrc, hhead⟩ :=
    raw_fields tgt src p.length p (crc32 (bytesOf (rawHead src tgt p)))
  rw [← rawHead] at hlen h0 h48 h96 h112 hcrc hhead
  rw [← Except.ok.inj ((marshal_ok hsrc htgt hp).symm.trans h)]
  have hcrcStart : 144 + 8 * p.length - 32 = 112 + 8 * p.length := by omega
  rw [splitFrame_ok (by omega) (by omega)]
  · rw [h48, h0, bitsToUInt_b48 hsrc, bitsToUInt_b48 htgt, hlen, hcrcStart, h112, bytesOf_bitsOfBytes]
  · rw [hlen, hcrcStart, hcrc, hhead, bitsToUInt_b32]
  · rw [h96, bitsToUInt_b16 (by omega), hlen]
    omega

/-- R105: a contraction that succeeds gives 4 bits for every 5. -/
theorem length_of_contract_ok {table : Vector Codeword 16} {x raw : BitSeq}
    (h : changeCoding x (contract table) 5 = .ok raw) : raw.length = 4 * (x.length / 5) := by
  by_cases hmod : x.length % 5 = 0
  · by_cases hv : ∀ j < x.length / 5, (lcCon table (BitVec.ofNat 5 (bitsToUInt (slice x (5 * j) (5 * j + 5))))).valid = true
    · obtain ⟨out, hout, hlen, -⟩ := contract_slices hmod hv
      rw [hout] at h
      rwa [← Except.ok.inj h]
    · rw [contract_fails hmod hv] at h
      cases h
  · rw [changeCoding_misaligned _ hmod] at h
    cases h

/-- R101, R114, R131: decoding takes the preamble, the NRZI coding and the line code off again and splits what was expanded. -/
theorem decodeFrame_of_expanded {table : Vector Codeword 16} {raw lc : BitSeq} (ht : injectiveTable table)
    (hlen : 144 ≤ raw.length) (hlc : changeCoding raw (expand table) 4 = .ok lc) :
    decodeFrame table (preRom ++ toDifferential lc true) = splitFrame raw := by
  have hcontract := contract_expanded ht hlc
  have hraw := length_of_contract_ok hcontract
  refine decodeFrame_raw table ?_ (matchPreamble_preRom _) ?_
  · rw [List.length_append, preRom_length, toDifferential_length]
    omega
  · rw [List.drop_left' preRom_length, fromDifferential_toDifferential, hcontract]

/-- R158: decoding an encoded frame gives its fields back. -/
theorem decodeFrame_encodeFrame {table : Vector Codeword 16} {src tgt : Nat} {p : List Byte} (ht : injectiveTable table)
    (hsrc : src < 2 ^ 48) (htgt : tgt < 2 ^ 48) (hp : p.length ≤ 65535) :
    ∃ x, encodeFrame table src tgt p = .ok x ∧ x.length = 244 + 10 * p.length ∧ decodeFrame table x = .ok ⟨src, tgt, p⟩ := by
  obtain ⟨raw, lc, hraw, hrawLen, hlc, -, henc, hlen⟩ := encodeFrame_stages table hsrc htgt hp
  exact ⟨_, henc, hlen, (decodeFrame_of_expanded ht (by omega) hlc).trans (splitFrame_of_marshal hsrc htgt hp hraw)⟩

/-! ### Sequences of commands -/

section

variable {i : Instr} {s t : State}

/-- R207: after a success the host goes on. -/
theorem execChecked_cons (h : exec i s = .next t) (hs : t.status = 0x0001#16) (is : List Instr) :
    execChecked (i :: is) s = execChecked is t := by
  rw [execChecked, h]
  exact if_pos hs

/-- R207: after a failure the host stops. -/
theorem execChecked_cons_of_failure (h : exec i s = .next t) (hs : t.status ≠ 0x0001#16) (is : List Instr) :
    execChecked (i :: is) s = .next t := by
  rw [execChecked, h]
  exact if_neg hs

/-- R207: nothing follows the last command, whether it succeeded or not. -/
theorem execChecked_singleton (h : exec i s = .next t) : execChecked [i] s = .next t := by
  by_cases hs : t.status = 0x0001#16
  · exact execChecked_cons h hs []
  · exact execChecked_cons_of_failure h hs []

/-- A sequence of one command. -/
theorem execAll_singleton (h : exec i s = .next t) : execAll [i] s = .next t := execAll_cons h []

/-- R56, R171: a command that emits `out`, then XFER: if `out` fits both buffers, both succeed and the rest of the sequence starts
with `out` in IBUF, under the same parameters. -/
theorem exec_emit_xfer {out : BitSeq} (h : exec i s = emitResult s (.ok out)) (h32 : out.length < 2 ^ 32)
    (hobuf : out.length ≤ s.par.obufCap) (hibuf : out.length ≤ s.par.ibufCap) :
    ∃ u, (∀ is, execAll (i :: .xfer :: is) s = execAll is u ∧ execChecked (i :: .xfer :: is) s = execChecked is u) ∧
      ibufSeq u = out ∧ u.par = s.par := by
  obtain ⟨t, ht, hemitted⟩ := emitResult_emits hobuf h32
  have hseq : obufSeq t = out := obufSeq_of_emitted hemitted
  obtain ⟨-, hlen, hstatus, -, -, -, hpar, -⟩ := hemitted
  have hfits : t.obufLen.toNat ≤ t.par.ibufCap := by rwa [hlen, hpar]
  have hxfer : exec .xfer t = _ := execXfer_fits hfits
  have hi : exec i s = .next t := h.trans ht
  refine ⟨_, fun is => ⟨(execAll_cons hi _).trans (execAll_cons hxfer is),
    (execChecked_cons hi hstatus _).trans (execChecked_cons hxfer rfl is)⟩, ?_, hpar⟩
  rw [← hseq]
  exact ibufSeq_writeFrom (s := t) rfl rfl (obufSeq_length t).symm

end

/-- Settles O46: `decodeFrame_encodeFrame`, and the same through the buffers: XFER hands FRAME_DEC what FRAME_ENC emitted. The
longest frame has 655594 bits. -/
theorem roundTrip : Obligations.RoundTrip := by
  unfold Obligations.RoundTrip
  refine ⟨fun table src tgt p ht hsrc htgt hp => ?_, fun s hok hibuf hobuf hpbuf hsrc htgt hp => ?_⟩
  · obtain ⟨x, henc, -, hdec⟩ := decodeFrame_encodeFrame ht hsrc htgt hp
    exact ⟨x, henc, hdec⟩
  · rw [← pbufSeq_length] at hp
    obtain ⟨x, henc, hlen, hdec⟩ := decodeFrame_encodeFrame (injectiveTable_of_ok hok) hsrc htgt hp
    obtain ⟨u, hpath, hu, hpar⟩ := exec_emit_xfer (exec_frameEnc henc) (by omega) (by omega) (by omega)
    rw [← hu, ← hpar] at hdec
    obtain ⟨t, ht, hdelivered⟩ := deliverResult_delivers (s := u) (f := ⟨s.src.toNat, s.tgt.toNat, pbufSeq s⟩)
      (by rw [hpar]; exact hp.trans hpbuf) (by dsimp only; omega) s.src.isLt s.tgt.isLt
    have hpayload : pbufSeq t = pbufSeq s := pbufSeq_of_delivered hdelivered
    obtain ⟨hs, ht', -, -, hstatus, -⟩ := hdelivered
    exact ⟨t, (hpath _).1.trans (execAll_singleton ((exec_frameDec hdec).trans ht)), BitVec.eq_of_toNat_eq hs,
      BitVec.eq_of_toNat_eq ht', hpayload, hstatus⟩

/-! ### The step-by-step paths -/

/-- R159: FRAME_ENC against its path, where the whole frame fits both buffers. -/
theorem frameEnc_path {s : State} (hok : s.par.ok) (hobuf : 244 + 10 * s.pbufLen.toNat ≤ s.par.obufCap)
    (hibuf : 244 + 10 * s.pbufLen.toNat ≤ s.par.ibufCap) (hsrc : s.src.toNat < 2 ^ 48) (htgt : s.tgt.toNat < 2 ^ 48)
    (hp : s.pbufLen.toNat ≤ 65535) :
    ∃ t u, exec .frameEnc s = .next t ∧
      execAll [.frameMarshal, .xfer, .lcExpand, .xfer, .nrziEnc true] s = .next u ∧
      t.status = 0x0001#16 ∧ u.status = 0x0001#16 ∧ obufSeq t = preRom ++ obufSeq u := by
  rw [← pbufSeq_length] at hobuf hibuf hp
  obtain ⟨raw, lc, hraw, hrawLen, hlc, hlcLen, henc, hlen⟩ := encodeFrame_stages s.par.lcTable hsrc htgt hp
  obtain ⟨t, ht, htEmitted⟩ := emitResult_emits (s := s) (out := preRom ++ toDifferential lc true) (by omega) (by omega)
  obtain ⟨v, hmarshal, hv, hvPar⟩ := exec_emit_xfer (exec_frameMarshal hraw) (by omega) (by omega) (by omega)
  rw [← hv, ← hvPar] at hlc
  obtain ⟨w, hexpand, hw, hwPar⟩ := exec_emit_xfer (exec_lcExpand hlc) (by omega) (by rw [hvPar]; omega) (by rw [hvPar]; omega)
  have hdiffLen : (toDifferential lc true).length = 180 + 10 * (pbufSeq s).length := (toDifferential_length lc true).trans hlcLen
  obtain ⟨u, hu, huEmitted⟩ := emitResult_emits (s := w) (out := toDifferential lc true) (by rw [hwPar, hvPar]; omega) (by omega)
  have hnrzi : exec (.nrziEnc true) w = .next u := by
    rw [← hu, ← hw]
    rfl
  refine ⟨t, u, (exec_frameEnc henc).trans ht, ?_, ?_, ?_, ?_⟩
  · rw [(hmarshal _).1, (hexpand _).1, execAll_singleton hnrzi]
  · obtain ⟨-, -, hstatus, -⟩ := htEmitted
    exact hstatus
  · obtain ⟨-, -, hstatus, -⟩ := huEmitted
    exact hstatus
  · rw [obufSeq_of_emitted htEmitted, obufSeq_of_emitted huEmitted]

/-- R159: two commands end alike: with the same STATUS and, if they succeeded, the same SRC, TGT and PBUF_SEQ. -/
def SameFrameEnd (t u : State) : Prop :=
  t.status = u.status ∧ (t.status = 0x0001#16 → t.src = u.src ∧ t.tgt = u.tgt ∧ pbufSeq t = pbufSeq u)

/-- Two commands that fail for one reason end alike. -/
theorem sameFrameEnd_fail (e : Reason) (s u : State) : SameFrameEnd (fail e s) (fail e u) :=
  ⟨rfl, fun h => absurd h (statusFailure_ne_success e)⟩

/-- R155, R157: two states with the same parameters end alike when each delivers what one raw frame splits into. -/
theorem deliverResult_sameFrameEnd {s u : State} {raw : BitSeq} (hpar : u.par = s.par) (h32 : raw.length < 2 ^ 32) :
    ∃ t v, deliverResult s (splitFrame raw) = .next t ∧ deliverResult u (splitFrame raw) = .next v ∧ SameFrameEnd t v := by
  cases hf : splitFrame raw with
  | error e => exact ⟨_, _, rfl, rfl, sameFrameEnd_fail e s u⟩
  | ok f =>
    rcases Nat.lt_or_ge s.par.pbufCap f.payload.length with hcap | hcap
    · exact ⟨_, _, deliverResult_overflows hcap, deliverResult_overflows (hpar ▸ hcap), sameFrameEnd_fail .bufferOverflow s u⟩
    · obtain ⟨t, ht, htDelivered⟩ := deliverResult_of_splitFrame (s := s) hf h32 hcap
      obtain ⟨v, hv, hvDelivered⟩ := deliverResult_of_splitFrame (s := u) hf h32 (hpar ▸ hcap)
      have hpayload : pbufSeq t = pbufSeq v := (pbufSeq_of_delivered htDelivered).trans (pbufSeq_of_delivered hvDelivered).symm
      obtain ⟨htSrc, htTgt, -, -, htStatus, -⟩ := htDelivered
      obtain ⟨hvSrc, hvTgt, -, -, hvStatus, -⟩ := hvDelivered
      exact ⟨t, v, ht, hv, htStatus.trans hvStatus.symm, fun _ =>
        ⟨BitVec.eq_of_toNat_eq (htSrc.trans hvSrc.symm), BitVec.eq_of_toNat_eq (htTgt.trans hvTgt.symm), hpayload⟩⟩

/-- R159: FRAME_DEC against its path, on an input that passes steps 1 and 2 and fits both buffers. -/
theorem frameDec_path {s s' : State} (hpar : s'.par = s.par) (hn : 144 ≤ s.ibufLen.toNat)
    (hpre : matchPreamble (ibufSeq s) = true) (hrest : ibufSeq s' = (ibufSeq s).drop 64)
    (hobuf : s.ibufLen.toNat ≤ s.par.obufCap) (hibuf : s.ibufLen.toNat ≤ s.par.ibufCap) :
    ∃ t u, exec .frameDec s = .next t ∧
      execChecked [.nrziDec true, .xfer, .lcContract, .xfer, .frameSplit] s' = .next u ∧ SameFrameEnd t u := by
  have h32 := s.ibufLen.isLt
  rw [← ibufSeq_length] at hn hobuf hibuf h32
  have hdLen : (fromDifferential ((ibufSeq s).drop 64) true).length = (ibufSeq s).length - 64 := by
    rw [fromDifferential_length, List.length_drop]
  have hnrzi : exec (.nrziDec true) s' = emitResult s' (.ok (fromDifferential ((ibufSeq s).drop 64) true)) := by
    rw [← hrest]
    rfl
  obtain ⟨v, hdecode, hv, hvPar⟩ := exec_emit_xfer hnrzi (by omega) (by rw [hpar]; omega) (by rw [hpar]; omega)
  rw [hpar] at hvPar
  cases hcoding : changeCoding (fromDifferential ((ibufSeq s).drop 64) true) (contract s.par.lcTable) 5 with
  | error e =>
    have hcontract : exec .lcContract v = .next (fail e v) := exec_lcContract (by rw [hv, hvPar, hcoding])
    refine ⟨_, _, exec_frameDec (decodeFrame_codingError _ hn hpre hcoding), ?_, sameFrameEnd_fail e s v⟩
    rw [(hdecode _).2, execChecked_cons_of_failure hcontract (statusFailure_ne_success e)]
  | ok raw =>
    have hrawLen := length_of_contract_ok hcoding
    have hcontract : exec .lcContract v = emitResult v (.ok raw) := exec_lcContract (by rw [hv, hvPar, hcoding])
    obtain ⟨w, hxfer, hw, hwPar⟩ := exec_emit_xfer hcontract (by omega) (by rw [hvPar]; omega) (by rw [hvPar]; omega)
    obtain ⟨t, u, ht, hu, hend⟩ := deliverResult_sameFrameEnd (s := s) (u := w) (raw := raw) (hwPar.trans hvPar) (by omega)
    refine ⟨t, u, (exec_frameDec (decodeFrame_raw _ hn hpre hcoding)).trans ht, ?_, hend⟩
    rw [(hdecode _).2, (hxfer _).2, execChecked_singleton ((exec_frameSplit (congrArg splitFrame hw)).trans hu)]

/-- Settles O47: the two paths, each command's result handed on by XFER. -/
theorem frameCommandsEqualTheStepByStepPath : Obligations.FrameCommandsEqualTheStepByStepPath := by
  unfold Obligations.FrameCommandsEqualTheStepByStepPath
  exact ⟨fun _ hok hobuf hibuf hsrc htgt hp => frameEnc_path hok hobuf hibuf hsrc htgt hp,
    fun _ _ _ hpar hn hpre hrest hobuf hibuf => frameDec_path hpar hn hpre hrest hobuf hibuf⟩

end Sys2Proof.Machine
end

section
/-! R160 (spec/44_frame.md): which check rejects a damaged frame. The CRC detects one changed byte because each step of it is
injective, in the register and in the byte. -/

namespace Sys2Proof.Machine

/-! ### The CRC of lists that differ in one byte -/

/-- R142: the polynomial has bit 31, so the top bit after a shift is the bit shifted out. -/
theorem crcShift_getLsbD_31 (a : BitVec 32) : (crcShift a).getLsbD 31 = a.getLsbD 0 := by
  unfold crcShift
  split
  · rename_i h
    rw [h]
    simp [Config.crcPoly]
  · rename_i h
    rw [Bool.eq_false_iff.2 h]
    simp

/-- R142: a shift loses nothing: the bit shifted out can be read off, and so can the other bits. -/
theorem crcShift_injective : Function.Injective crcShift := by
  intro a b h
  have h0 : a.getLsbD 0 = b.getLsbD 0 := by rw [← crcShift_getLsbD_31, h, crcShift_getLsbD_31]
  have hshift : a >>> 1 = b >>> 1 := by
    unfold crcShift at h
    rw [h0] at h
    split at h
    · exact (BitVec.xor_left_inj _).1 h
    · exact h
  refine BitVec.eq_of_getLsbD_eq fun i _ => ?_
  cases i with
  | zero => exact h0
  | succ i => simpa [Nat.add_comm] using congrArg (·.getLsbD i) hshift

/-- Repeating an injective step is injective. -/
theorem repeat_injective {α : Type} {f : α → α} (hf : Function.Injective f) (n : Nat) :
    Function.Injective (Nat.repeat f n) := by
  induction n with
  | zero => exact fun _ _ h => h
  | succ n ih => exact hf.comp ih

/-- R142: the one-byte step is injective in the register. -/
theorem crcByte_left_injective (x : Byte) : Function.Injective fun a => crcByte a x := fun _ _ h =>
  (BitVec.xor_left_inj _).1 (repeat_injective crcShift_injective 8 h)

/-- R142: the one-byte step is injective in the byte. -/
theorem crcByte_right_injective (a : BitVec 32) : Function.Injective (crcByte a) := fun x y h => by
  have hwide : x.setWidth 32 = y.setWidth 32 := (BitVec.xor_right_inj _).1 (repeat_injective crcShift_injective 8 h)
  have hnat : x.toNat % 2 ^ 32 = y.toNat % 2 ^ 32 := by simpa using congrArg BitVec.toNat hwide
  exact BitVec.eq_of_toNat_eq (by omega)

/-- The registers after lists with a common end are equal only if they were before it. -/
theorem foldl_crcByte_injective (p : List Byte) : Function.Injective fun a => p.foldl crcByte a := by
  induction p with
  | nil => exact fun _ _ h => h
  | cons x p ih => exact ih.comp (crcByte_left_injective x)

/-- A list with one byte replaced has the same register only if it is the same list. -/
theorem eq_of_foldl_crcByte_set (p : List Byte) (j : Nat) (y : Byte) (a : BitVec 32)
    (h : (p.set j y).foldl crcByte a = p.foldl crcByte a) : p.set j y = p := by
  induction p generalizing a j with
  | nil => rfl
  | cons x p ih =>
    cases j with
    | zero =>
      have hstep : crcByte a y = crcByte a x := foldl_crcByte_injective p h
      rw [List.set_cons_zero, crcByte_right_injective a hstep]
    | succ j => rw [List.set_cons_succ, ih j _ h]

/-- R143: the CRC of a list with one byte replaced is another one, unless the byte is the same. -/
theorem eq_of_crc32_set {p : List Byte} {j : Nat} {y : Byte} (h : crc32 (p.set j y) = crc32 p) : p.set j y = p :=
  eq_of_foldl_crcByte_set p j y _ ((BitVec.xor_left_inj _).1 h)

/-! ### One flipped bit -/

section

variable {s : BitSeq} {k : Nat}

/-- A flip inside a sequence gives another sequence. -/
theorem modify_not_ne (hk : k < s.length) : s.modify k (!·) ≠ s := fun h => by
  have hbit : (s[k]?).map (!·) = s[k]? := by
    conv_rhs => rw [← h]
    exact (List.getElem?_modify_eq ..).symm
  rw [List.getElem?_eq_getElem hk] at hbit
  simp at hbit

/-- A change before a slice does not reach it. -/
theorem slice_modify_of_lt {f : Bool → Bool} {a b : Nat} (h : k < a) : slice (s.modify k f) a b = slice s a b := by
  refine List.ext_getElem? fun i => ?_
  rw [slice_getElem?, slice_getElem?, List.getElem?_modify_ne f s (by omega)]

/-- A change from the start of a slice on changes the slice there (not at all, if it lies beyond the end). -/
theorem slice_modify_of_ge {f : Bool → Bool} {a b : Nat} (h : a ≤ k) :
    slice (s.modify k f) a b = (slice s a b).modify (k - a) f := by
  refine List.ext_getElem? fun i => ?_
  rw [slice_getElem?, List.getElem?_modify, List.getElem?_modify, slice_getElem?]
  have hpos : k = a + i ↔ k - a = i := by omega
  by_cases hi : a + i < b
  · simp only [if_pos hi, hpos]
  · simp only [if_neg hi, Option.map_eq_map, Option.map_none]

/-- A change at or beyond the end of a slice does not reach it. -/
theorem slice_modify_of_end_le {f : Bool → Bool} {a b : Nat} (h : b ≤ k) : slice (s.modify k f) a b = slice s a b := by
  rcases Nat.lt_or_ge k a with hlt | hge
  · exact slice_modify_of_lt hlt
  · rw [slice_modify_of_ge hge]
    refine List.modify_eq_self ?_
    simp [slice]
    omega

/-- R83: a changed bit reaches one byte alone. -/
theorem bytesOf_modify (f : Bool → Bool) (s : BitSeq) (k : Nat) : ∃ y, bytesOf (s.modify k f) = (bytesOf s).set (k / 8) y := by
  refine ⟨BitVec.ofNat 8 (bitsToUInt (slice (s.modify k f) (8 * (k / 8)) (8 * (k / 8) + 8))), List.ext_getElem? fun j => ?_⟩
  rw [bytesOf_getElem?, List.length_modify, List.getElem?_set, bytesOf_length]
  by_cases hj : k / 8 = j
  · rw [if_pos hj, hj]
  · rw [if_neg hj, bytesOf_getElem?]
    have hslice : slice (s.modify k f) (8 * j) (8 * j + 8) = slice s (8 * j) (8 * j + 8) := by
      rcases Nat.lt_or_ge k (8 * j) with hlt | hge
      · exact slice_modify_of_lt hlt
      · exact slice_modify_of_end_le (by omega)
    rw [hslice]

/-- R143: the CRC of whole bytes changes with any one bit. -/
theorem crc32_bytesOf_modify_not_ne (h8 : s.length % 8 = 0) (hk : k < s.length) :
    crc32 (bytesOf (s.modify k (!·))) ≠ crc32 (bytesOf s) := fun h => by
  obtain ⟨y, hy⟩ := bytesOf_modify (!·) s k
  have hbytes : bytesOf (s.modify k (!·)) = bytesOf s := by
    rw [hy] at h ⊢
    exact eq_of_crc32_set h
  have hbits := congrArg bitsOfBytes hbytes
  rw [bitsOfBytes_bytesOf _ (by rwa [List.length_modify]), bitsOfBytes_bytesOf s h8] at hbits
  exact modify_not_ne hk hbits

/-- R160: a valid raw frame with one bit flipped fails the CRC check: a flip before the CRC field changes the CRC, a flip inside it
changes the field. -/
theorem splitFrame_modify_not {f : Frame} (hf : splitFrame s = .ok f) (hk : k < s.length) :
    splitFrame (s.modify k (!·)) = .error .crcMismatch := by
  obtain ⟨hlen, h8, hcrc, -, -⟩ := ok_of_splitFrame hf
  refine splitFrame_badCrc (by rwa [List.length_modify]) (by rwa [List.length_modify]) ?_
  rw [List.length_modify]
  rcases Nat.lt_or_ge k (s.length - 32) with hlt | hge
  · have hhead : (slice s 0 (s.length - 32)).length = s.length - 32 := slice_length (by omega)
    rw [slice_modify_of_lt hlt, slice_modify_of_ge (Nat.zero_le k), Nat.sub_zero, hcrc]
    exact fun h => crc32_bytesOf_modify_not_ne (by omega) (by omega) (BitVec.eq_of_toNat_eq h).symm
  · have hfield : (slice s (s.length - 32) s.length).length = 32 := by
      rw [slice_length le_rfl]
      omega
    rw [slice_modify_of_ge hge, slice_modify_of_end_le hge, ← hcrc]
    exact fun h => modify_not_ne (by omega) (bitsToUInt_injective (List.length_modify ..) h)

end

/-- R160: a frame with a right CRC whose declared length is not its payload's. -/
theorem splitFrame_wrong_declared {src tgt declared : Nat} {p : List Byte} {head : BitSeq} (hd : declared < 2 ^ 16)
    (hne : declared ≠ p.length) (h : head = b48 tgt ++ b48 src ++ b16 declared ++ bitsOfBytes p) :
    splitFrame (head ++ b32 (crc32 (bytesOf head))) = .error .lengthMismatch := by
  obtain ⟨hlen, -, -, hdeclared, -, hcrc, hhead⟩ := raw_fields tgt src declared p (crc32 (bytesOf head))
  rw [← h] at hlen hdeclared hcrc hhead
  have hcrcStart : 144 + 8 * p.length - 32 = 112 + 8 * p.length := by omega
  refine splitFrame_badLength (by omega) (by omega) ?_ ?_
  · rw [hlen, hcrcStart, hcrc, hhead, bitsToUInt_b32]
  · rw [hdeclared, bitsToUInt_b16 hd, hlen]
    omega

/-- R132: one flipped bit in the preamble, whatever follows. -/
theorem matchPreamble_flipped {k : Nat} (hk : k < 64) (rest : BitSeq) : matchPreamble (preRom.modify k (!·) ++ rest) = false := by
  have hpre : matchPreamble preRom = true := by simpa using matchPreamble_preRom []
  rw [matchPreamble_append rest (by rw [List.length_modify, preRom_length]), matchPreamble_modify_not hpre hk]

/-- Settles O48: `splitFrame_modify_not`, through the encoding by `decodeFrame_of_expanded`; the length check; the first two checks
of `decodeFrame`. -/
theorem failureStepProperties : Obligations.FailureStepProperties := by
  unfold Obligations.FailureStepProperties
  refine ⟨fun r f k hf hk => splitFrame_modify_not hf hk, fun table r lc f k ht hf hk hlc => ?_,
    fun src tgt declared p _ _ hd hne => splitFrame_wrong_declared hd hne rfl, fun table => decodeFrame_short table (by decide),
    fun table k rest hk => ?_⟩
  · obtain ⟨hlen, -⟩ := ok_of_splitFrame hf
    rw [decodeFrame_of_expanded ht (by rwa [List.length_modify]) hlc, splitFrame_modify_not hf hk]
  · have hlen : (preRom.modify k (!·) ++ rest).length = 64 + rest.length := by
      rw [List.length_append, List.length_modify, preRom_length]
    exact ⟨fun h => decodeFrame_noPreamble table (by omega) (matchPreamble_flipped hk rest),
      fun h => decodeFrame_short table (by omega)⟩

end Sys2Proof.Machine
end

section
/-! The control commands (spec/45_control.md R170, R171): what NOP and XFER leave, each with its encoding. -/

namespace Sys2Proof.Machine

section

variable {s : State}

/-- R171: XFER when OBUF_LEN does not fit. -/
theorem execXfer_overflows (h : s.par.ibufCap < s.obufLen.toNat) : execXfer s = .next { s with status := 0x0014#16 } := by
  rw [execXfer, fillIbuf_overflows (by rwa [obufSeq_length]), complete_error, fail, statusFailure_eq]

/-- R171: what a cell of IBUF reads as after OBUF_SEQ was written to it. -/
theorem ibufCell_writeFrom_obufSeq {t : State} (h : t.ibuf = Memory.writeFrom s.ibuf 0 (obufSeq s))
    (he : t.resetEpoch = s.resetEpoch) (k : Nat) :
    ibufCell t k = if k < s.obufLen.toNat then obufCell s k else ibufCell s k := by
  rw [ibufCell_writeFrom s _ t h he, obufSeq_getElem?]
  split
  · rfl
  · rfl

/-- The frame of a fill of IBUF: IBUF_LEN and STATUS are the only registers it writes. -/
theorem keepsRegs_fillIbuf (ibuf : Memory Bool) (len : BitVec 32) (status : BitVec 16) :
    keepsRegs [1, 5] s { s with ibuf := ibuf, ibufLen := len, status := status } :=
  keepsRegs_of (fun _ => rfl) (by simp) (fun _ => rfl) (fun _ => rfl) (fun _ => rfl) (by simp) (fun _ => rfl)
    (fun _ => rfl) (fun _ => rfl) (fun _ => rfl) (fun _ => rfl)

end

/-- Settles O50: the capacity decides between `execXfer_overflows` and `execXfer_fits`. -/
theorem xferCopiesTheOutputOrFails : Obligations.XferCopiesTheOutputOrFails := by
  unfold Obligations.XferCopiesTheOutputOrFails
  refine ⟨encodedAs_of_opClass (k := .n) rfl (by decide), fun s => ⟨execXfer_overflows, fun hfits => ?_⟩⟩
  refine ⟨_, execXfer_fits hfits, ibufCell_writeFrom_obufSeq rfl rfl, rfl, rfl, keepsRegs_fillIbuf _ _ _, ?_⟩
  exact ⟨fun _ => rfl, fun _ => rfl, rfl, rfl, rfl, rfl⟩

/-- R170: NOP ends with success and makes no writes. -/
theorem exec_nop (s : State) : exec .nop s = .next (succeed s) := rfl

/-- Settles O49: NOP cannot fail, and success writes STATUS alone. -/
theorem nopChangesOnlyStatus : Obligations.NopChangesOnlyStatus := by
  unfold Obligations.NopChangesOnlyStatus
  exact ⟨encodedAs_of_opClass (k := .n) rfl (by decide), exec_nop⟩

end Sys2Proof.Machine
end

section
/-! How every command ends (spec/60_exceptions.md R180 to R185): with `complete`, which always answers a next state and, on a
failure, discards the command's writes. -/

namespace Sys2Proof.Machine

/-! ### Every command ends with `complete` -/

theorem emitResult_eq_complete (s : State) (r : Except Reason BitSeq) : emitResult s r = complete s (r.bind (emit s)) := by
  cases r <;> rfl

theorem deliverResult_eq_complete (s : State) (r : Except Reason Frame) :
    deliverResult s r = complete s (r.bind (deliver s)) := by
  cases r <;> rfl

/-- R66: a command computes its writes or its first failure, and ends with `complete`. -/
theorem exists_exec_eq_complete (i : Instr) (s : State) : ∃ r, exec i s = complete s r := by
  cases i with
  | lcCon5 c =>
    rw [exec, execLcCon5]
    split
    · exact ⟨.ok _, rfl⟩
    · exact ⟨.error .invalidCodeword, rfl⟩
  | lcExpand | lcContract | frameMarshal | frameEnc => exact ⟨_, emitResult_eq_complete s _⟩
  | nrziEnc | nrziDec | preGen => exact ⟨_, emitResult_eq_complete s (.ok _)⟩
  | frameSplit | frameDec => exact ⟨_, deliverResult_eq_complete s _⟩
  | xfer => exact ⟨fillIbuf s (obufSeq s), rfl⟩
  | _ => exact ⟨.ok _, rfl⟩

/-! ### No traps -/

theorem complete_answers (s : State) (r : Except Reason State) : ∃ t, complete s r = .next t := by
  cases r with
  | ok u => exact ⟨_, complete_ok s u⟩
  | error e => exact ⟨_, complete_error s e⟩

theorem exec_answers (i : Instr) (s : State) : ∃ t, exec i s = .next t := by
  obtain ⟨r, hr⟩ := exists_exec_eq_complete i s
  rw [hr]
  exact complete_answers s r

/-- R95: an illegal word answers too, with its failure. -/
theorem issue_answers (w : Word) (s : State) : ∃ t, issue w s = .next t := by
  rw [issue]
  split
  · exact exec_answers _ _
  · exact ⟨_, rfl⟩

theorem step_answers (s : State) : ∃ t, step s = .next t := by
  cases hp : s.pending with
  | nil => exact ⟨s, by simp only [step, hp]⟩
  | cons a rest =>
    cases hw : issuedWord a with
    | some w =>
      rw [step_of_issues hp hw]
      exact issue_answers w _
    | none => exact ⟨_, step_of_accesses hp hw⟩

/-- Settles O7: every command ends with `complete`, an illegal word fails, and every other access is a next state by itself. -/
theorem stepAlwaysAnswersNext : Obligations.StepAlwaysAnswersNext := by
  unfold Obligations.StepAlwaysAnswersNext
  exact ⟨step_answers, exec_answers⟩

/-! ### Failures -/

/-- R180: the codes of the reasons. -/
theorem Reason.code_bounds (e : Reason) : 1 ≤ e.code.toNat ∧ e.code.toNat ≤ 11 := by cases e <;> decide

/-- R185: the 16-bit shift of STATUS loses no bit of the 4-bit code. -/
theorem statusFailure_eq_ofNat (e : Reason) : statusFailure e = BitVec.ofNat 16 (e.code.toNat <<< 1) := by
  cases e <;> decide

/-- R185: a command whose STATUS is not that of success failed, and its failure is all it did. -/
theorem exec_eq_fail {i : Instr} {s t : State} (h : exec i s = .next t) (hs : t.status ≠ statusSuccess) :
    ∃ e, t = fail e s := by
  obtain ⟨r, hr⟩ := exists_exec_eq_complete i s
  rcases complete_cases (hr.symm.trans h) with ⟨u, -, rfl⟩ | ⟨e, -, rfl⟩
  · exact absurd (succeed_status u) hs
  · exact ⟨e, rfl⟩

/-- Settles O51: the failed command's state is `fail e s`, whose REASON is the code of `e`. -/
theorem failureChangesOnlyStatus : Obligations.FailureChangesOnlyStatus := by
  unfold Obligations.FailureChangesOnlyStatus
  intro i s t h hs
  obtain ⟨e, rfl⟩ := exec_eq_fail h hs
  obtain ⟨hlow, hhigh⟩ := e.code_bounds
  refine ⟨e.code.toNat, hlow, hhigh, ?_⟩
  rw [← statusFailure_eq_ofNat, fail]

end Sys2Proof.Machine
end

section
/-! The reset state (spec/70_reset_and_hazards.md R200, R202; spec/40_line_coding.md R102): what power-on and HostReset have in
common, the invariant at power-on, and the contents of the default table. -/

namespace Sys2Proof.Machine

/-! ### The default parameters -/

/-- R13, R19, R102: the defaults obey the laws of the parameters. -/
theorem defaults_ok : Config.defaults.ok := by decide

/-- Settles O16: each ROM is read at every address, LC_EXP at the sixteen groups and LC_CON at the thirty-two codewords. -/
theorem defaultTableContents : Obligations.DefaultTableContents := by
  unfold Obligations.DefaultTableContents
  refine ⟨?codewords, ?invalid⟩
  case codewords => decide
  case invalid => decide

/-! ### Power-on and HostReset -/

/-- R200, R202: what power-on and HostReset have in common: they differ only in the parameters, the epoch of the free values and
the host's queue. -/
def resetWith (par : Config.Params) (epoch : Nat) (pending : List HostAccess) : State :=
  { State.reset with par := par, resetEpoch := epoch, pending := pending }

theorem reset_eq_resetWith : State.reset = resetWith Config.defaults 0 [] := rfl

theorem hostReset_eq_resetWith (s : State) : hostReset s = resetWith s.par (s.resetEpoch + 1) s.pending := rfl

/-- R55: the step on a HostReset. -/
theorem step_reset {s : State} {rest : List HostAccess} (hp : s.pending = .reset :: rest) :
    step s = .next (resetWith s.par (s.resetEpoch + 1) rest) := by
  rw [step_of_accesses hp rfl]
  exact congrArg _ (hostReset_eq_resetWith (takeAccess rest s))

/-- Settles O9: the invariant reads neither the epoch nor the queue, so power-on meets it as a HostReset under the defaults does. -/
theorem resetMeetsInvariant : Obligations.ResetMeetsInvariant := by
  unfold Obligations.ResetMeetsInvariant
  have h : StateInv (hostReset State.reset) := stateInv_hostReset defaults_ok
  exact { h with }

/-- Settles O14: every state `resetWith` has the reset values, and both power-on and HostReset give such a state. -/
theorem resetGivesTheResetState : Obligations.ResetGivesTheResetState := by
  unfold Obligations.ResetGivesTheResetState
  intro isReset
  have hreset (par : Config.Params) (epoch : Nat) (pending : List HostAccess) : isReset (resetWith par epoch pending) :=
    ⟨rfl, rfl, rfl, rfl, rfl, rfl, rfl, rfl, rfl, rfl, nrzLvl_nrzWord true true, nrzPrev_nrzWord true true, rfl,
      pmCnt_pmWord 0 pmMatching, pmSt_pmWord 0 pmMatching, Memory.get?_nil, Memory.get?_nil, Memory.get?_nil⟩
  refine ⟨?powerOn, ?hostReset⟩
  case powerOn =>
    rw [reset_eq_resetWith]
    exact hreset _ _ _
  case hostReset =>
    intro s rest hp
    exact ⟨_, step_reset hp, hreset _ _ _, rfl, rfl⟩

end Sys2Proof.Machine
end
